-- ==== Sys2Proof/Word.lean ====
section
/-! DEFINITION. The word types of the CRC16-FRAMER: bytes (frame bytes, buffer cells, operands) and 16-bit values
(the CRC register, param2), all unsigned (00_scope.md R10, R11). The notation of R11 in Lean: `v[k]` is v.getLsbD k, `{a, b}`
is a ++ b, `^ & | <<` are ^^^ &&& ||| <<<, `s ++ t`, `[]` and `|s|` are those of List, `s[i..j)` is (s.take j).drop i; bit 0 is
the least significant. A value becomes a number only by BitVec.toNat, which is unsigned: no definition of the package
uses a signed reading, comparison, shift or extension. -/

namespace Sys2Proof

/-- A byte, 8 bits unsigned (R11). -/
abbrev Byte := BitVec 8

/-- A 16-bit value: CRC_REG, param2, an address, a slot (R10). -/
abbrev Half := BitVec 16

end Sys2Proof
end

