-- ==== Sys2Proof/Config.lean ====
section
/-! DEFINITION. The fixed constants of the block (00_scope.md R7), its two open parameters (R8, R9) and the one free
choice the spec leaves to the run (41_framer.md R89). -/

namespace Sys2Proof

/-- CRC_POLY (R7). -/
def Config.crcPoly : Half := 0x8005

/-- CRC_INIT (R7): "Register starts at 0". -/
def Config.crcInit : Half := 0x0000

/-- FRAME_OVERHEAD (R7): bytes of a frame beside its payload. -/
def Config.frameOverhead : Nat := 8

/-- The largest payload the 8-bit length byte allows (R10, R83). -/
def Config.maxPayload : Nat := 248

/-- Where a payload begins in the buffer (20_memory.md R44). -/
def Config.payloadStart : Nat := 6

/-- OP_READ (R7, R58). -/
def Config.opRead : Byte := 0x02
/-- OP_WRITE (R7, R58). -/
def Config.opWrite : Byte := 0x12
/-- OP_LOCK (R7, R58). -/
def Config.opLock : Byte := 0x17
/-- OP_GENKEY (R7, R58). -/
def Config.opGenkey : Byte := 0x40
/-- OP_RANDOM (R7, R58). -/
def Config.opRandom : Byte := 0x1B

/-- LOCK mode of the configuration zone (R7, R59). -/
def Config.lockConfigMode : Byte := 0x80
/-- LOCK mode of the data and OTP zones (R7, R59). -/
def Config.lockDataOtpMode : Byte := 0x81
/-- LOCK mode of slot 0 (R7, R59). -/
def Config.lockSlot0Mode : Byte := 0x82
/-- GENKEY mode of a new private key (R7, R59). -/
def Config.genkeyNewMode : Byte := 0x04

/-- The parameters of a run (10_state.md R32). They are carried in State, so that every statement over all states is
a statement over all parameter values; no step changes them. DESIGN CHOICE (log 1). -/
structure Params where
  /-- P_BUF_SIZE (R8). -/
  bufSize : Nat
  /-- P_WORD_ADDR (R9). -/
  wordAddr : Byte
  deriving DecidableEq, Repr

/-- What R8 asks of the parameters: 64 <= P_BUF_SIZE <= 256. P_WORD_ADDR is any byte (R9). -/
abbrev Params.Valid (p : Params) : Prop := 64 ≤ p.bufSize ∧ p.bufSize ≤ 256

/-- The values State.reset carries: those of the spec's test vectors (95_test_vectors.md). P_BUF_SIZE = 64 is a
DESIGN CHOICE, P_WORD_ADDR = 0x03 is PRESUMED from the chip family as R9 itself says (log 1, unsafe for a claim that
rests on the value). -/
def Config.vectorParams : Params := { bufSize := 64, wordAddr := 0x03 }

/-- FREE VALUE (log 6): R89 leaves to the run whether a READ or WRITE with a bad length on a busy block answers
SIZE_ERROR (true) or BUSY (false). Applied to the counter State.choices, so that each such answer is free anew. -/
opaque Config.sizeErrorFirst : Nat → Bool

end Sys2Proof
end

