-- ==== Sys2Proof/Machine/CrcUnit.lean ====
section
/-! DEFINITION. The CRC unit's functions (40_crc.md R70, R71, R72), pure: the request CRC16 and the framer use them. -/

namespace Sys2Proof.Machine

/-- CRC_BIT (R70): the top bit is read before the shift, and the polynomial is added where the data bit differs. -/
def crcBit (r : Half) (d : Bool) : Half :=
  if d != r.getLsbD 15 then (r <<< 1) ^^^ Config.crcPoly else r <<< 1

/-- CRC_BYTE (R71): the eight bits of the byte, least significant first. -/
def crcByte (r : Half) (b : Byte) : Half :=
  [0, 1, 2, 3, 4, 5, 6, 7].foldl (fun acc k => crcBit acc (b.getLsbD k)) r

/-- crc16_from (R75 law 4): the loop of R72 from a given register value. -/
def crcFrom (r : Half) (bytes : List Byte) : Half := bytes.foldl crcByte r

/-- crc16 (R72): from CRC_INIT, no final XOR, no reflection. -/
def crc16 (bytes : List Byte) : Half := crcFrom Config.crcInit bytes

end Sys2Proof.Machine
end

