-- ==== Sys2Proof/Syntax.lean ====
section
/-! DEFINITION. The instructions of the block: nine host requests, seven named wire commands and the transport's
completion event, one constructor per row of spec/opcode_table.json, and the packets they arrive in. -/

namespace Sys2Proof

/-- The four completion statuses of the transport contract (60_exceptions.md R122). -/
inductive Status where
  /-- `OK`. -/
  | ok
  /-- `ADDR_NAK`: negative acknowledgment in the address phase. -/
  | addrNak
  /-- `DATA_NAK`: negative acknowledgment in the data phase. -/
  | dataNak
  /-- `TRANSPORT_FAULT`: other transport fault. -/
  | transportFault
  deriving DecidableEq, Repr

/-- The access size a READ or WRITE frame carries in bit 7 of param1: ACCESS_LENGTHS = 4 or 32 bytes (R7, R56). -/
inductive AccessSize where
  /-- 4 bytes: bit 7 of param1 clear. -/
  | bytes4
  /-- 32 bytes: bit 7 of param1 set. -/
  | bytes32
  deriving DecidableEq, Repr

/-- The instructions. Indices and lengths are naturals, wider than their encoded byte, as 30_encoding.md R63 allows;
the meanings check them. -/
inductive Instr where
  /-- CRC16 (40_crc.md R73). -/
  | crc16 (data : List Byte)
  /-- STAGE (41_framer.md R80). -/
  | stage (idx : Nat) (b : Byte)
  /-- FETCH (R81). -/
  | fetch (idx : Nat)
  /-- SEND_COMMAND (R82). -/
  | sendCommand (op p1 : Byte) (p2 : Half) (n : Nat)
  /-- READ (R84). -/
  | read (zone : Byte) (addr : Half) (len : Nat)
  /-- WRITE (R85). -/
  | write (zone : Byte) (addr : Half) (len : Nat)
  /-- RECV (R86). -/
  | recv (m : Nat)
  /-- STATUS (R95). -/
  | status
  /-- RESET (70_reset_and_hazards.md R140). -/
  | reset
  /-- READ.CMD (42_wire_commands.md R100): zone bits 6:0, the size of bit 7, the address. -/
  | readCmd (zone : BitVec 7) (size : AccessSize) (addr : Half)
  /-- WRITE.CMD (R101); its payload stands staged in BUF[6 .. 5+len]. -/
  | writeCmd (zone : BitVec 7) (size : AccessSize) (addr : Half)
  /-- LOCK.CONFIG (R102). -/
  | lockConfig
  /-- LOCK.DATA_OTP (R103). -/
  | lockDataOtp
  /-- LOCK.SLOT0 (R104). -/
  | lockSlot0
  /-- GENKEY.NEW (R105). -/
  | genkeyNew (slot : Half)
  /-- RANDOM (R106). -/
  | random
  /-- COMPLETE (60_exceptions.md R126), the transport's event. -/
  | complete (st : Status) (data : List Byte)
  deriving DecidableEq, Repr

/-- The `format` column of spec/opcode_table.json. -/
inductive Format where
  /-- HOST: a selector byte and its operands (30_encoding.md R61). -/
  | host
  /-- CMDFRAME: frame bytes 2 to 5 of a wire command, that is opcode, param1 and param2 (R50, D30). -/
  | cmdFrame
  /-- EVENT: a completion, the status code of R64 and then the received bytes. -/
  | event
  deriving DecidableEq, Repr

/-- Bytes in one of the three formats. -/
structure Packet where
  format : Format
  bytes : List Byte
  deriving DecidableEq, Repr

/-- One input of the block: encoded, or in the typed form that R61 allows instead. -/
inductive Input where
  | packet (p : Packet)
  | typed (instr : Instr)
  deriving DecidableEq, Repr

/-- Why the decoder rejects a packet. -/
inductive DecodeError where
  /-- Selector 0x00 or 0x0A to 0xFF (R62). -/
  | reservedSelector (sel : Byte)
  /-- Shorter than its row's length (R62). -/
  | truncated (f : Format)
  /-- A completion code that is none of the four of R64 (R122). -/
  | reservedStatus (code : Byte)
  deriving DecidableEq, Repr

end Sys2Proof
end

