-- ==== Sys2Proof/WellFormed.lean ====
section
/-! DEFINITION. Which instructions have an encoding: every index, length and count that is encoded as one byte is at
most 255 (30_encoding.md R61, R63). The meanings take the wider values too. -/

namespace Sys2Proof

/-- An operand that is encoded as one unsigned byte (R63). -/
abbrev fitsByte (n : Nat) : Bool := n < 256

/-- The instruction has an encoding. -/
def wellFormed : Instr → Bool
  | .crc16 data => fitsByte data.length
  | .stage idx _ => fitsByte idx
  | .fetch idx => fitsByte idx
  | .sendCommand _ _ _ n => fitsByte n
  | .read _ _ len => fitsByte len
  | .write _ _ len => fitsByte len
  | .recv m => fitsByte m
  | .status => true
  | .reset => true
  | .readCmd _ _ _ => true
  | .writeCmd _ _ _ => true
  | .lockConfig => true
  | .lockDataOtp => true
  | .lockSlot0 => true
  | .genkeyNew _ => true
  | .random => true
  | .complete _ _ => true

end Sys2Proof
end

