-- ==== Sys2Proof/Decode.lean ====
section
/-! DEFINITION. The decoder, total on any bytes and rejecting by name, the encoder, and the opcode table's rows
(30_encoding.md R50, R58, R59, R61 to R64; spec/opcode_table.json). -/

namespace Sys2Proof

/-! ## Byte order (20_memory.md R37) -/

/-- v[7:0]. -/
def loByte (v : Half) : Byte := v.extractLsb' 0 8

/-- v[15:8]. -/
def hiByte (v : Half) : Byte := v.extractLsb' 8 8

/-- The two bytes of a 16-bit field, low byte first (R37). -/
def le16 (v : Half) : List Byte := [loByte v, hiByte v]

/-- The 16-bit value {hi, lo} (R63). -/
def halfOf (lo hi : Byte) : Half := hi ++ lo

/-! ## Codes and the access size -/

/-- The status code of R64. -/
def statusCode : Status → Byte
  | .ok => 0x00
  | .addrNak => 0x01
  | .dataNak => 0x02
  | .transportFault => 0x03

/-- The status of a code of R64, where it is one of the four (R122). -/
def statusOfCode (c : Byte) : Option Status :=
  match c.toNat with
  | 0 => some .ok
  | 1 => some .addrNak
  | 2 => some .dataNak
  | 3 => some .transportFault
  | _ => none

/-- The length in bytes of an access size (R7). -/
def accessLength : AccessSize → Nat
  | .bytes4 => 4
  | .bytes32 => 32

/-- The size bit of an access size (R56: "32 sets bit 7 of the zone byte, 4 clears it"). -/
def sizeBit : AccessSize → BitVec 1
  | .bytes4 => 0#1
  | .bytes32 => 1#1

/-- The access size bit 7 of param1 says (R56). -/
def sizeOfParam1 (p1 : Byte) : AccessSize :=
  if p1.getLsbD 7 then .bytes32 else .bytes4

/-- param1 of a READ or WRITE frame from its two fields (R56). -/
def packParam1 (zone : BitVec 7) (size : AccessSize) : Byte := sizeBit size ++ zone

/-! ## The decoders -/

/-- A host request off the front of a byte sequence (R61, R62, R63); the bytes after its own length are handed back:
"a host request's length is told by its selector" (R68), so they begin the next request. DESIGN CHOICE (log 8). -/
def decodeHost : List Byte → Except DecodeError (Instr × List Byte)
  | [] => .error (.truncated .host)
  | sel :: ops =>
    match sel.toNat, ops with
    | 1, k :: rest =>
      if k.toNat ≤ rest.length then .ok (.crc16 (rest.take k.toNat), rest.drop k.toNat)
      else .error (.truncated .host)
    | 2, idx :: b :: rest => .ok (.stage idx.toNat b, rest)
    | 3, idx :: rest => .ok (.fetch idx.toNat, rest)
    | 4, op :: p1 :: lo :: hi :: n :: rest => .ok (.sendCommand op p1 (halfOf lo hi) n.toNat, rest)
    | 5, zone :: lo :: hi :: len :: rest => .ok (.read zone (halfOf lo hi) len.toNat, rest)
    | 6, zone :: lo :: hi :: len :: rest => .ok (.write zone (halfOf lo hi) len.toNat, rest)
    | 7, m :: rest => .ok (.recv m.toNat, rest)
    | 8, rest => .ok (.status, rest)
    | 9, rest => .ok (.reset, rest)
    | v, _ =>
      if 1 ≤ v ∧ v ≤ 9 then .error (.truncated .host) else .error (.reservedSelector sel)

/-- The command a header (opcode, param1, param2) names: the row of the table that its key matches, with the param2
the row fixes (R100 to R106). A header no row names is the plain SEND_COMMAND of it: the framer "neither checks nor
refuses an opcode" (R60). DESIGN CHOICE (log 8). -/
def namedCommand (op p1 : Byte) (p2 : Half) : Instr :=
  if op = Config.opRead then .readCmd (p1.extractLsb' 0 7) (sizeOfParam1 p1) p2
  else if op = Config.opWrite then .writeCmd (p1.extractLsb' 0 7) (sizeOfParam1 p1) p2
  else if op = Config.opLock ∧ p1 = Config.lockConfigMode ∧ p2 = 0 then .lockConfig
  else if op = Config.opLock ∧ p1 = Config.lockDataOtpMode ∧ p2 = 0 then .lockDataOtp
  else if op = Config.opLock ∧ p1 = Config.lockSlot0Mode ∧ p2 = 0 then .lockSlot0
  else if op = Config.opGenkey ∧ p1 = Config.genkeyNewMode then .genkeyNew p2
  else if op = Config.opRandom ∧ p1 = 0 ∧ p2 = 0 then .random
  else .sendCommand op p1 p2 0

/-- A wire command off the front of a byte sequence: frame bytes 2 to 5 (R50), param2 low byte first (R54). -/
def decodeCommand : List Byte → Except DecodeError (Instr × List Byte)
  | op :: p1 :: lo :: hi :: rest => .ok (namedCommand op p1 (halfOf lo hi), rest)
  | _ => .error (.truncated .cmdFrame)

/-- A completion event: the status code of R64, then all the received bytes (log 9). -/
def decodeEvent : List Byte → Except DecodeError (Instr × List Byte)
  | [] => .error (.truncated .event)
  | c :: data =>
    match statusOfCode c with
    | some st => .ok (.complete st data, [])
    | none => .error (.reservedStatus c)

/-- The decoder: an instruction and the bytes after it, or why there is none. -/
def decode (p : Packet) : Except DecodeError (Instr × List Byte) :=
  match p.format with
  | .host => decodeHost p.bytes
  | .cmdFrame => decodeCommand p.bytes
  | .event => decodeEvent p.bytes

/-! ## The encoder -/

/-- The four header bytes of a wire command (R50, R54). -/
def commandHeader (op p1 : Byte) (p2 : Half) : List Byte := op :: p1 :: le16 p2

/-- The packet of an instruction, from R61 for the host requests, R50, R56, R58 and R59 for the wire commands, R64 for
the completion. It is the instruction's encoding where wellFormed holds. -/
def encode : Instr → Packet
  | .crc16 data => ⟨.host, 0x01 :: BitVec.ofNat 8 data.length :: data⟩
  | .stage idx b => ⟨.host, [0x02, BitVec.ofNat 8 idx, b]⟩
  | .fetch idx => ⟨.host, [0x03, BitVec.ofNat 8 idx]⟩
  | .sendCommand op p1 p2 n => ⟨.host, [0x04, op, p1, loByte p2, hiByte p2, BitVec.ofNat 8 n]⟩
  | .read zone addr len => ⟨.host, [0x05, zone, loByte addr, hiByte addr, BitVec.ofNat 8 len]⟩
  | .write zone addr len => ⟨.host, [0x06, zone, loByte addr, hiByte addr, BitVec.ofNat 8 len]⟩
  | .recv m => ⟨.host, [0x07, BitVec.ofNat 8 m]⟩
  | .status => ⟨.host, [0x08]⟩
  | .reset => ⟨.host, [0x09]⟩
  | .readCmd zone size addr => ⟨.cmdFrame, commandHeader Config.opRead (packParam1 zone size) addr⟩
  | .writeCmd zone size addr => ⟨.cmdFrame, commandHeader Config.opWrite (packParam1 zone size) addr⟩
  | .lockConfig => ⟨.cmdFrame, commandHeader Config.opLock Config.lockConfigMode 0⟩
  | .lockDataOtp => ⟨.cmdFrame, commandHeader Config.opLock Config.lockDataOtpMode 0⟩
  | .lockSlot0 => ⟨.cmdFrame, commandHeader Config.opLock Config.lockSlot0Mode 0⟩
  | .genkeyNew slot => ⟨.cmdFrame, commandHeader Config.opGenkey Config.genkeyNewMode slot⟩
  | .random => ⟨.cmdFrame, commandHeader Config.opRandom 0x00 0⟩
  | .complete st data => ⟨.event, statusCode st :: data⟩

/-! ## The opcode table -/

/-- A row of spec/opcode_table.json: the bits under mask equal value. -/
structure OpcodeRow where
  mnemonic : String
  format : Format
  value : Nat
  mask : Nat
  deriving DecidableEq, Repr

/-- The rows of the table. COMPLETE has no bits (match "none"): an empty mask in a format of its own. -/
def opcodeRows : List OpcodeRow :=
  [ ⟨"CRC16", .host, 0x01, 0xFF⟩, ⟨"STAGE", .host, 0x02, 0xFF⟩, ⟨"FETCH", .host, 0x03, 0xFF⟩,
    ⟨"SEND_COMMAND", .host, 0x04, 0xFF⟩, ⟨"READ", .host, 0x05, 0xFF⟩, ⟨"WRITE", .host, 0x06, 0xFF⟩,
    ⟨"RECV", .host, 0x07, 0xFF⟩, ⟨"STATUS", .host, 0x08, 0xFF⟩, ⟨"RESET", .host, 0x09, 0xFF⟩ ] ++
  [ ⟨"READ.CMD", .cmdFrame, 0x0200, 0xFF00⟩, ⟨"WRITE.CMD", .cmdFrame, 0x1200, 0xFF00⟩,
    ⟨"LOCK.CONFIG", .cmdFrame, 0x1780, 0xFFFF⟩, ⟨"LOCK.DATA_OTP", .cmdFrame, 0x1781, 0xFFFF⟩,
    ⟨"LOCK.SLOT0", .cmdFrame, 0x1782, 0xFFFF⟩, ⟨"GENKEY.NEW", .cmdFrame, 0x4004, 0xFFFF⟩,
    ⟨"RANDOM", .cmdFrame, 0x1B00, 0xFFFF⟩, ⟨"COMPLETE", .event, 0, 0⟩ ]

/-- The mnemonic of an instruction in the table. -/
def mnemonic : Instr → String
  | .crc16 _ => "CRC16"
  | .stage _ _ => "STAGE"
  | .fetch _ => "FETCH"
  | .sendCommand _ _ _ _ => "SEND_COMMAND"
  | .read _ _ _ => "READ"
  | .write _ _ _ => "WRITE"
  | .recv _ => "RECV"
  | .status => "STATUS"
  | .reset => "RESET"
  | .readCmd _ _ _ => "READ.CMD"
  | .writeCmd _ _ _ => "WRITE.CMD"
  | .lockConfig => "LOCK.CONFIG"
  | .lockDataOtp => "LOCK.DATA_OTP"
  | .lockSlot0 => "LOCK.SLOT0"
  | .genkeyNew _ => "GENKEY.NEW"
  | .random => "RANDOM"
  | .complete _ _ => "COMPLETE"

/-- How many operand bytes follow a selector when every operand byte is zero (the length column of R61 less one;
CRC16 with k = 0 has its count byte alone). -/
def zeroOperandBytes (sel : Byte) : Nat :=
  match sel.toNat with
  | 1 => 1
  | 2 => 2
  | 3 => 1
  | 4 => 5
  | 5 => 4
  | 6 => 4
  | 7 => 1
  | _ => 0

/-- An instruction of the table from its numbered bits: a row of at most 8 bits is a host selector, with zero
operands; a wider one is a command key {frame[2], frame[3]}, high byte first as D30 writes it, whose second word is
param2; the row without bits is the completion, status code 0x00 (OK) and no bytes. DESIGN CHOICE (log 8). -/
def tablePacket (nbits w : Nat) : Packet :=
  if nbits = 0 then ⟨.event, [0x00]⟩
  else if nbits ≤ 8 then
    ⟨.host, BitVec.ofNat 8 w :: List.replicate (zeroOperandBytes (BitVec.ofNat 8 w)) 0⟩
  else
    ⟨.cmdFrame, [BitVec.ofNat 8 (w / 0x100), BitVec.ofNat 8 w,
                 BitVec.ofNat 8 (w / 0x10000), BitVec.ofNat 8 (w / 0x1000000)]⟩

/-- The instruction the decoder reads from an instruction of the table whose bits are w. -/
def decodeTableWord (nbits w : Nat) : Option Instr :=
  match decode (tablePacket nbits w) with
  | .ok (instr, _) => some instr
  | .error _ => none

end Sys2Proof
end

