-- ==== Sys2Proof/Machine/State.lean ====
section
/-! DEFINITION. The state of the block: the six elements of 10_state.md R20, the two parameters of a run (R32), and
three fields of the model's own (the inputs still to come, the replies given, the index of the next free choice);
the reasons a step can stop; the state after reset. -/

namespace Sys2Proof.Machine

/-- XFER, the transfer in flight (R25). -/
inductive Xfer where
  | idle
  | write (len : Nat)
  | read (len : Nat)
  deriving DecidableEq, Repr

/-- LAST_STATUS (R27): NONE, or the status of the last completion. -/
inductive LastStatus where
  | none
  | of (st : Status)
  deriving DecidableEq, Repr

/-- The model faults of 60_exceptions.md R124, which FAULTS records. -/
inductive FaultCode where
  /-- `F_BUF_RANGE`: a buffer index past the buffer. -/
  | bufRange
  /-- `F_UNWRITTEN`: a read of a cell that holds ⊥. -/
  | unwritten
  /-- `F_FRAME_RANGE`: a frame past 256 bytes or past the buffer. -/
  | frameRange
  /-- `F_RECV_RANGE`: a receive length of 0 or past the buffer. -/
  | recvRange
  /-- `F_SPURIOUS_COMPLETION`: a completion with no transfer in flight. -/
  | spuriousCompletion
  /-- `F_COMPLETION_LENGTH`: a completion with the wrong number of bytes. -/
  | completionLength
  deriving DecidableEq, Repr

/-- A record of HIST (R29). -/
inductive Transfer where
  /-- `W(s)`: a write of the bytes s was issued. -/
  | w (bytes : List Byte)
  /-- `R(n)`: a read of n bytes was issued. -/
  | r (len : Nat)
  /-- `C(status, d)`: the transfer completed. -/
  | c (st : Status) (data : List Byte)
  deriving DecidableEq, Repr

/-- The direction of a finished transfer, as the notification tells it (R129). -/
inductive Direction where
  | write
  | read
  deriving DecidableEq, Repr

/-- The synchronous results of 60_exceptions.md R121, with the values OK carries. -/
inductive Result where
  /-- `OK`. -/
  | ok
  /-- `OK(crc)` of CRC16 (R73). -/
  | okCrc (v : Half)
  /-- `OK(byte)` of FETCH (R81). -/
  | okByte (b : Byte)
  /-- `OK(LAST_STATUS, BUSY)` of STATUS (R95). -/
  | okStatus (ls : LastStatus) (busy : Bool)
  /-- `SIZE_ERROR` (R88). -/
  | sizeError
  /-- `BUSY` (R87). -/
  | busy
  deriving DecidableEq, Repr

/-- What the host receives: the result of a request, or the notification of a completion (R129). -/
inductive Reply where
  | result (v : Result)
  | notify (dir : Direction) (st : Status)
  deriving DecidableEq, Repr

/-- The machine stops with a fault. -/
inductive Fault where
  /-- FAULTS is not empty, so no agent takes a further step (R125); f and req are its recorded pair. Raised by every
  meaning and by the fetch of an input, before anything else they do. Safe: the run is over, as the spec says. -/
  | halted (f : FaultCode) (req : Instr)
  deriving DecidableEq, Repr

/-- The model gives the input no meaning. -/
inductive Refusal where
  /-- An instruction that has no meaning yet. Raised by an arm of exec; none is left. Safe. -/
  | notModelled (mnemonic : String)
  /-- RESET while a transfer is in flight (70_reset_and_hazards.md R141: "the model gives it no meaning and marks the
  run refused"). Raised by the meaning of RESET. Safe. -/
  | resetWhileBusy
  /-- A packet the decoder rejects (30_encoding.md R62). Raised by step on fetching it. Safe. -/
  | undecodable (e : DecodeError)
  deriving DecidableEq, Repr

/-- Buffer contents: the written cells, indices strictly rising; an unlisted cell holds ⊥ (R24). -/
abbrev Memory := List Host.Cell

/-- The state of the machine. -/
structure State where
  /-- P_BUF_SIZE and P_WORD_ADDR (R8, R9, R32). -/
  params : Params
  /-- CRC_REG (R23). -/
  crcReg : Half
  /-- BUF (R24). -/
  buf : Memory
  /-- XFER (R25). -/
  xfer : Xfer
  /-- LAST_STATUS (R27). -/
  lastStatus : LastStatus
  /-- FAULTS (R28), a list without repeats. -/
  faults : List (FaultCode × Instr)
  /-- HIST (R29), oldest record first. -/
  hist : List Transfer
  /-- The model's own: the host's requests and the transport's completions still to come, in order (R22, R32). -/
  inputs : List Input
  /-- The model's own: what the host has received, oldest first (R13 `return`, R129). -/
  replies : List Reply
  /-- The model's own: the index of the next free choice of R89. -/
  choices : Nat
  deriving DecidableEq, Repr

/-- The state after reset, which is the initial state of a run (70_reset_and_hazards.md R142). The six elements have
the values R20 states. DESIGN CHOICE: the parameters (log 1), inputs (log 2), replies (log 3) and choices (log 6). -/
def State.reset : State where
  params := Config.vectorParams
  crcReg := Config.crcInit
  buf := []
  xfer := .idle
  lastStatus := .none
  faults := []
  hist := []
  inputs := []
  replies := []
  choices := 0

/-- What fetching the next input gives. -/
inductive Fetched where
  /-- FAULTS is not empty: the machine takes no step. -/
  | halted (f : FaultCode) (req : Instr)
  /-- Nothing to do: the block waits for a request or a completion (R142). -/
  | wait
  /-- The next input has no meaning. -/
  | reject (e : DecodeError)
  /-- The instruction to run, and the state with it taken from the inputs. -/
  | run (instr : Instr) (s : State)
  deriving DecidableEq, Repr

end Sys2Proof.Machine
end

