-- ==== Sys2Proof/Machine/Flags.lean ====
section
/-! DEFINITION. The block's one derived flag, BUSY (10_state.md R26; R30: there is no other flag), and the numeric
codes of statuses, results and faults (30_encoding.md R64, R65). -/

namespace Sys2Proof.Machine

/-- BUSY = (XFER != Idle) (R26): the hand-off token. -/
def busy (s : State) : Bool := s.xfer != .idle

/-- The code LAST_STATUS shows (R64). -/
def lastStatusCode : LastStatus → Byte
  | .none => 0xFF
  | .of st => statusCode st

/-- The code of a synchronous result (R65). -/
def resultCode : Result → Byte
  | .ok => 0x00
  | .okCrc _ => 0x00
  | .okByte _ => 0x00
  | .okStatus _ _ => 0x00
  | .sizeError => 0x01
  | .busy => 0x02

/-- The code of a fault (R65). -/
def faultCodeByte : FaultCode → Byte
  | .bufRange => 0x10
  | .unwritten => 0x11
  | .frameRange => 0x12
  | .recvRange => 0x13
  | .spuriousCompletion => 0x14
  | .completionLength => 0x15

end Sys2Proof.Machine
end

