-- ==== Sys2Proof/Machine/Operands.lean ====
section
/-! DEFINITION. Operand assembly: param1 of a READ or WRITE (30_encoding.md R56), the fields of a command frame
(R50 to R54), the frame checker (R55), the request a wire command stands for (42_wire_commands.md), the host's view of a
response (R57, R107) and the assembler text of a request (R66). -/

namespace Sys2Proof.Machine

/-- The lengths READ and WRITE accept (R88). -/
abbrev goodLength (len : Nat) : Bool := len = 4 || len = 32

/-- param1 of a READ or WRITE: bits 6:0 of the zone byte, bit 7 the access size (R56). -/
def param1 (zone : Byte) (len : Nat) : Byte :=
  (zone &&& 0x7F) ||| (if len = 32 then 0x80 else 0x00)

/-- The zone argument of the request that makes a wire command whose zone bits are given (R100, R101). -/
def zoneByte (zone : BitVec 7) : Byte := zone.setWidth 8

/-- The length byte of a frame with n payload bytes, n + 7 (R51). -/
def lengthByte (n : Nat) : Byte := BitVec.ofNat 8 (n + 7)

/-- Frame bytes 0 to 5 (R50). -/
def frameHeader (wordAddr op p1 : Byte) (p2 : Half) (n : Nat) : List Byte :=
  [wordAddr, lengthByte n, op, p1, loByte p2, hiByte p2]

/-- The bytes the CRC covers, frame bytes 1 to 5+n (R52). -/
def crcSpan (op p1 : Byte) (p2 : Half) (payload : List Byte) : List Byte :=
  [lengthByte payload.length, op, p1, loByte p2, hiByte p2] ++ payload

/-- The whole command frame (R50, R53). -/
def commandFrame (wordAddr op p1 : Byte) (p2 : Half) (payload : List Byte) : List Byte :=
  wordAddr :: (crcSpan op p1 p2 payload ++ le16 (crc16 (crcSpan op p1 p2 payload)))

/-- The frame checker of R55: at least 8 bytes, byte 1 the length less one, the last two bytes the CRC of the bytes
between. -/
def frameOk (f : List Byte) : Bool :=
  8 ≤ f.length && (f.getD 1 0).toNat == f.length - 1 &&
    f.drop (f.length - 2) == le16 (crc16 ((f.take (f.length - 2)).drop 1))

/-- The request a fault records: the instruction itself, or for a wire command the host request its rule names
(R100 to R106). -/
def requestOf : Instr → Instr
  | .crc16 data => .crc16 data
  | .stage idx b => .stage idx b
  | .fetch idx => .fetch idx
  | .sendCommand op p1 p2 n => .sendCommand op p1 p2 n
  | .read zone addr len => .read zone addr len
  | .write zone addr len => .write zone addr len
  | .recv m => .recv m
  | .status => .status
  | .reset => .reset
  | .readCmd zone size addr => .read (zoneByte zone) addr (accessLength size)
  | .writeCmd zone size addr => .write (zoneByte zone) addr (accessLength size)
  | .lockConfig => .sendCommand 0x17 0x80 0 0
  | .lockDataOtp => .sendCommand 0x17 0x81 0 0
  | .lockSlot0 => .sendCommand 0x17 0x82 0 0
  | .genkeyNew slot => .sendCommand 0x40 0x04 slot 0
  | .random => .sendCommand 0x1B 0x00 0 0
  | .complete st data => .complete st data

/-- The bytes the source's software reads back after a command (42_wire_commands.md R107), where it names a length: the
host's use of RECV, read by no rule of the block. 7 for a 4-byte READ is the spec's own reading (D17). -/
def responseLength : Instr → Option Nat
  | .readCmd _ size _ => some (accessLength size + 3)
  | .lockConfig => some 1
  | .lockDataOtp => some 1
  | .lockSlot0 => some 1
  | .genkeyNew _ => some 64
  | .random => some 35
  | .writeCmd _ _ _ => none
  | .crc16 _ => none
  | .stage _ _ => none
  | .fetch _ => none
  | .sendCommand _ _ _ _ => none
  | .read _ _ len => if goodLength len then some (len + 3) else none
  | .write _ _ _ => none
  | .recv _ => none
  | .status => none
  | .reset => none
  | .complete _ _ => none

/-- The data of a response of the form count(1)+data+crc(2) (R57): bytes 1 to m-3. The block itself parses none (R94). -/
def responseData (response : List Byte) : List Byte := (response.take (response.length - 2)).drop 1

/-- A line of the assembler syntax (R66): a name and its operands, in decimal. -/
def asmLine (name : String) (operands : List Nat) : String :=
  match operands with
  | [] => name
  | _ :: _ => name ++ " " ++ ", ".intercalate (operands.map fun n => toString n)

/-- The name of a status in the syntax of R66. -/
def statusName : Status → String
  | .ok => "OK"
  | .addrNak => "ADDR_NAK"
  | .dataNak => "DATA_NAK"
  | .transportFault => "TRANSPORT_FAULT"

/-- The assembler text of a request or a completion (R66); a wire command is written as the request it stands for. -/
def assemblyText : Instr → String
  | .crc16 data => asmLine "crc16" (data.map fun b => b.toNat)
  | .stage idx b => asmLine "stage" [idx, b.toNat]
  | .fetch idx => asmLine "fetch" [idx]
  | .sendCommand op p1 p2 n => asmLine "send_command" [op.toNat, p1.toNat, p2.toNat, n]
  | .read zone addr len => asmLine "read" [zone.toNat, addr.toNat, len]
  | .write zone addr len => asmLine "write" [zone.toNat, addr.toNat, len]
  | .recv m => asmLine "recv" [m]
  | .status => asmLine "status" []
  | .reset => asmLine "reset" []
  | .readCmd zone size addr => asmLine "read" [zone.toNat, addr.toNat, accessLength size]
  | .writeCmd zone size addr => asmLine "write" [zone.toNat, addr.toNat, accessLength size]
  | .lockConfig => asmLine "send_command" [0x17, 0x80, 0, 0]
  | .lockDataOtp => asmLine "send_command" [0x17, 0x81, 0, 0]
  | .lockSlot0 => asmLine "send_command" [0x17, 0x82, 0, 0]
  | .genkeyNew slot => asmLine "send_command" [0x40, 0x04, slot.toNat, 0]
  | .random => asmLine "send_command" [0x1B, 0, 0, 0]
  | .complete st data =>
    "complete " ++ statusName st ++ ", [" ++ ", ".intercalate (data.map fun b => toString b.toNat) ++ "]"

end Sys2Proof.Machine
end

