-- ==== Sys2Proof/Machine/Ops.lean ====
section
/-! DEFINITION. The named operations the meanings are written over: the cells of the buffer, the pseudocode
primitives of 00_scope.md R13 (return, raise, issue, BUF[i], MemRead, MemWrite), and the framing of a command
(41_framer.md R82), which SEND_COMMAND, READ, WRITE and the wire commands share. -/

namespace Sys2Proof.Machine

/-- The outcome of a step of this machine. -/
abbrev StepOutcome := Host.Outcome State Fault Refusal

/-! ## Cells, without the range check -/

/-- The content of a cell, none for ⊥ (R24). -/
def Memory.read : Memory → Nat → Option Byte
  | [], _ => none
  | (a, b) :: rest, i => if a = i then some b else Memory.read rest i

/-- Cell i holds b, every other cell as before; the list stays in index order. -/
def Memory.write : Memory → Nat → Byte → Memory
  | [], i, b => [(i, b)]
  | (a, c) :: rest, i, b =>
    if i < a then (i, b) :: (a, c) :: rest
    else if a = i then (i, b) :: rest
    else (a, c) :: Memory.write rest i b

/-- Cells 0 to n-1 hold ⊥, every other cell as before (R43). -/
def Memory.clearBelow (m : Memory) (n : Nat) : Memory := m.filter (fun c => n ≤ c.1)

/-- The canonical form: indices strictly rising. -/
abbrev Memory.wf (m : Memory) : Prop := m.Pairwise (fun x y => x.1 < y.1)

/-! ## The primitives over a buffer of a given size (20_memory.md R36) -/

/-- `BUF[i]` as a value: F_BUF_RANGE past the buffer, F_UNWRITTEN for ⊥. -/
def bufRead (size : Nat) (m : Memory) (i : Nat) : Except FaultCode Byte :=
  if size ≤ i then .error .bufRange
  else
    match m.read i with
    | none => .error .unwritten
    | some b => .ok b

/-- `BUF[i] <- b`: F_BUF_RANGE past the buffer. -/
def bufWrite (size : Nat) (m : Memory) (i : Nat) (b : Byte) : Except FaultCode Memory :=
  if size ≤ i then .error .bufRange else .ok (m.write i b)

/-- `MemRead(i, n)`: each cell read as `BUF[i]`, in order. -/
def memRead (size : Nat) (m : Memory) : Nat → Nat → Except FaultCode (List Byte)
  | _, 0 => .ok []
  | i, n + 1 =>
    match bufRead size m i with
    | .error f => .error f
    | .ok b =>
      match memRead size m (i + 1) n with
      | .error f => .error f
      | .ok rest => .ok (b :: rest)

/-- `MemWrite(i, |s|, s)`: each cell written as `BUF[i] <- b`, in order. -/
def memWrite (size : Nat) : Memory → Nat → List Byte → Except FaultCode Memory
  | m, _, [] => .ok m
  | m, i, b :: rest =>
    match bufWrite size m i b with
    | .error f => .error f
    | .ok m' => memWrite size m' (i + 1) rest

/-! ## Ending a step -/

/-- No agent takes a step once FAULTS is not empty (60_exceptions.md R125). -/
def live (s : State) (k : StepOutcome) : StepOutcome :=
  match s.faults with
  | [] => k
  | (f, req) :: _ => .fault (.halted f req)

/-- A reply reaches the host. -/
def addReply (v : Reply) (s : State) : State := { s with replies := s.replies ++ [v] }

/-- `return R` (R13). -/
def answer (v : Result) (s : State) : StepOutcome := .next (addReply (.result v) s)

/-- `raise Fault(F)` (R13, R124): the pair joins FAULTS and nothing else of the block changes. -/
def raise (f : FaultCode) (req : Instr) (s : State) : StepOutcome :=
  .next { s with faults := s.faults.insert (f, req) }

/-- Goes on with a value, or raises the fault its computation met, in the state the step began with. -/
def orRaise {α : Type} (req : Instr) (s : State) (e : Except FaultCode α) (k : α → StepOutcome) : StepOutcome :=
  match e with
  | .error f => raise f req s
  | .ok v => k v

/-- The record `C(status, d)` as R29 defines it: the status and, for an OK completion, the bytes d; otherwise d = [].
The pseudocode of R126 appends this record, in R29's notation. DEDUCED (log 10). -/
def completionRecord (st : Status) (d : List Byte) : Transfer :=
  match st with
  | .ok => .c .ok d
  | .addrNak => .c .addrNak []
  | .dataNak => .c .dataNak []
  | .transportFault => .c .transportFault []

/-- A record joins HIST (R29). -/
def record (t : Transfer) (s : State) : State := { s with hist := s.hist ++ [t] }

/-- `XFER <- Write(|frame|)` and `issue Write(frame)` (R13, R25). -/
def issueWrite (frame : List Byte) (s : State) : State :=
  record (.w frame) { s with xfer := .write frame.length }

/-- `XFER <- Read(m)` and `issue Read(m)` (R13, R25). -/
def issueRead (m : Nat) (s : State) : State :=
  record (.r m) { s with xfer := .read m }

/-- A request that uses the buffer: BUSY while it is on loan, before any other check (41_framer.md R87, R131). -/
def whenFree (s : State) (k : StepOutcome) : StepOutcome :=
  if busy s then answer .busy s else k

/-! ## Framing a command -/

/-- SEND_COMMAND of R82 for the request req, line by line: the limits, the staged payload, the header, the CRC over
bytes 1 to 5+n as they now stand in the buffer, the CRC bytes low first, and the one write transfer of the frame. -/
def sendFrame (req : Instr) (op p1 : Byte) (p2 : Half) (n : Nat) (s : State) : StepOutcome :=
  whenFree s <|
  if Config.maxPayload < n ∨ s.params.bufSize < n + Config.frameOverhead then raise .frameRange req s
  else
    orRaise req s (memRead s.params.bufSize s.buf Config.payloadStart n) fun _ =>
    orRaise req s (memWrite s.params.bufSize s.buf 0 (frameHeader s.params.wordAddr op p1 p2 n)) fun b1 =>
    orRaise req s (memRead s.params.bufSize b1 1 (n + 5)) fun span =>
    orRaise req s (memWrite s.params.bufSize b1 (Config.payloadStart + n) (le16 (crc16 span))) fun b2 =>
    orRaise req s (memRead s.params.bufSize b2 0 (n + Config.frameOverhead)) fun frame =>
    answer .ok (issueWrite frame { s with buf := b2, crcReg := crc16 span })

/-- The size check of READ and WRITE (R88, R89): a bad length answers SIZE_ERROR, on a busy block SIZE_ERROR or BUSY,
whichever the run chooses (free choice, log 6); a good length goes on. -/
def whenSized (len : Nat) (s : State) (k : StepOutcome) : StepOutcome :=
  if goodLength len then k
  else if busy s then
    answer (if Config.sizeErrorFirst s.choices then .sizeError else .busy) { s with choices := s.choices + 1 }
  else answer .sizeError s

/-- READ (R84) for the request req. -/
def readRequest (req : Instr) (zone : Byte) (addr : Half) (len : Nat) (s : State) : StepOutcome :=
  live s (whenSized len s (sendFrame req Config.opRead (param1 zone len) addr 0 s))

/-- WRITE (R85) for the request req: the payload is BUF[6 .. 6+len). -/
def writeRequest (req : Instr) (zone : Byte) (addr : Half) (len : Nat) (s : State) : StepOutcome :=
  live s (whenSized len s (sendFrame req Config.opWrite (param1 zone len) addr len s))

/-- A command without payload, by SEND_COMMAND (42_wire_commands.md R102 to R106). FAULTS names that request. -/
def plainCommand (op p1 : Byte) (p2 : Half) (s : State) : StepOutcome :=
  live s (sendFrame (.sendCommand op p1 p2 0) op p1 p2 0 s)

end Sys2Proof.Machine
end

