-- ==== Sys2Proof/Machine/Buffer.lean ====
section
/-! DEFINITION. The host's access to the buffer: STAGE and FETCH (41_framer.md R80, R81). -/

namespace Sys2Proof.Machine

/-- STAGE (R80): write one cell. -/
def execStage (idx : Nat) (b : Byte) (s : State) : StepOutcome :=
  live s <| whenFree s <|
    orRaise (.stage idx b) s (bufWrite s.params.bufSize s.buf idx b) fun m =>
    answer .ok { s with buf := m }

/-- FETCH (R81): read one cell. -/
def execFetch (idx : Nat) (s : State) : StepOutcome :=
  live s <| whenFree s <|
    orRaise (.fetch idx) s (bufRead s.params.bufSize s.buf idx) fun b =>
    answer (.okByte b) s

end Sys2Proof.Machine
end

