-- ==== Sys2Proof/Machine/Crc.lean ====
section
/-! DEFINITION. The CRC unit's one request, CRC16 (40_crc.md R73). -/

namespace Sys2Proof.Machine

/-- CRC16 (R73): it does not touch the buffer, so it is answered while BUSY too (R87). -/
def execCrc16 (data : List Byte) (s : State) : StepOutcome :=
  live s (answer (.okCrc (crc16 data)) { s with crcReg := crc16 data })

end Sys2Proof.Machine
end

