-- ==== Sys2Proof/Machine/Framer.lean ====
section
/-! DEFINITION. The framer's requests that issue a transfer: SEND_COMMAND, READ, WRITE and RECV
(41_framer.md R82 to R86). -/

namespace Sys2Proof.Machine

/-- SEND_COMMAND (R82). -/
def execSendCommand (op p1 : Byte) (p2 : Half) (n : Nat) (s : State) : StepOutcome :=
  live s (sendFrame (.sendCommand op p1 p2 n) op p1 p2 n s)

/-- READ (R84). -/
def execRead (zone : Byte) (addr : Half) (len : Nat) (s : State) : StepOutcome :=
  readRequest (.read zone addr len) zone addr len s

/-- WRITE (R85). -/
def execWrite (zone : Byte) (addr : Half) (len : Nat) (s : State) : StepOutcome :=
  writeRequest (.write zone addr len) zone addr len s

/-- RECV (R86): the received bytes land at the completion, not here. -/
def execRecv (m : Nat) (s : State) : StepOutcome :=
  live s <| whenFree s <|
    if m < 1 ∨ s.params.bufSize < m then raise .recvRange (.recv m) s
    else answer .ok (issueRead m s)

end Sys2Proof.Machine
end

