-- ==== Sys2Proof/Machine/System.lean ====
section
/-! DEFINITION. STATUS (41_framer.md R95) and RESET (70_reset_and_hazards.md R140, R141). -/

namespace Sys2Proof.Machine

/-- STATUS (R95): answered while BUSY too. -/
def execStatus (s : State) : StepOutcome :=
  live s (answer (.okStatus s.lastStatus (busy s)) s)

/-- RESET (R140): CRC_REG, BUF, XFER and LAST_STATUS to their reset values; FAULTS and HIST are kept. While a transfer
is in flight it is refused (R141). The parameters and the model's own fields are no state of the block and stay. -/
def execReset (s : State) : StepOutcome :=
  live s <|
    if busy s then .refused .resetWhileBusy
    else answer .ok { s with crcReg := Config.crcInit, buf := [], xfer := .idle, lastStatus := .none }

end Sys2Proof.Machine
end

