-- ==== Sys2Proof/Machine/Transport.lean ====
section
/-! DEFINITION. The transport's completion event, COMPLETE (60_exceptions.md R126, R129). -/

namespace Sys2Proof.Machine

/-- The common end of a completion (R126): `LAST_STATUS <- status`, `HIST <- HIST ++ [C(status, d)]`, `XFER <- Idle`, the
notification of direction and status (R129). -/
def finishTransfer (dir : Direction) (st : Status) (d : List Byte) (s : State) : StepOutcome :=
  .next (addReply (.notify dir st) (record (completionRecord st d) { s with lastStatus := .of st, xfer := .idle }))

/-- The completion of a write transfer: it carries no bytes and leaves BUF as it is. -/
def completeWrite (req : Instr) (st : Status) (data : List Byte) (s : State) : StepOutcome :=
  if data ≠ [] then raise .completionLength req s else finishTransfer .write st data s

/-- The completion of a read transfer of m bytes (R126): with OK the bytes land in cells 0 to m-1; with any other status
those cells hold ⊥. -/
def completeRead (req : Instr) (m : Nat) (st : Status) (data : List Byte) (s : State) : StepOutcome :=
  if st = .ok then
    if data.length ≠ m then raise .completionLength req s
    else
      orRaise req s (memWrite s.params.bufSize s.buf 0 data) fun b =>
      finishTransfer .read st data { s with buf := b }
  else finishTransfer .read st data { s with buf := s.buf.clearBelow m }

/-- COMPLETE (R126). -/
def execComplete (st : Status) (data : List Byte) (s : State) : StepOutcome :=
  live s <|
    match s.xfer with
    | .idle => raise .spuriousCompletion (.complete st data) s
    | .write _ => completeWrite (.complete st data) st data s
    | .read m => completeRead (.complete st data) m st data s

end Sys2Proof.Machine
end

