-- ==== Sys2Proof/Machine/Wire.lean ====
section
/-! DEFINITION. The seven named wire commands (42_wire_commands.md R100 to R106). Each means the host request its rule
names, one step; FAULTS then names that request. DEDUCED (log 7). -/

namespace Sys2Proof.Machine

/-- READ.CMD (R100): the request `read zone, addr, len`. -/
def execReadCmd (zone : BitVec 7) (size : AccessSize) (addr : Half) (s : State) : StepOutcome :=
  readRequest (.read (zoneByte zone) addr (accessLength size)) (zoneByte zone) addr (accessLength size) s

/-- WRITE.CMD (R101): the request `write zone, addr, len` on the payload staged in BUF[6 .. 5+len]. -/
def execWriteCmd (zone : BitVec 7) (size : AccessSize) (addr : Half) (s : State) : StepOutcome :=
  writeRequest (.write (zoneByte zone) addr (accessLength size)) (zoneByte zone) addr (accessLength size) s

/-- LOCK.CONFIG (R102): `send_command 0x17, 0x80, 0x0000, 0`. -/
def execLockConfig (s : State) : StepOutcome :=
  plainCommand Config.opLock Config.lockConfigMode 0x0000 s

/-- LOCK.DATA_OTP (R103): `send_command 0x17, 0x81, 0x0000, 0`. -/
def execLockDataOtp (s : State) : StepOutcome :=
  plainCommand Config.opLock Config.lockDataOtpMode 0x0000 s

/-- LOCK.SLOT0 (R104): `send_command 0x17, 0x82, 0x0000, 0`. -/
def execLockSlot0 (s : State) : StepOutcome :=
  plainCommand Config.opLock Config.lockSlot0Mode 0x0000 s

/-- GENKEY.NEW (R105): `send_command 0x40, 0x04, slot, 0`. -/
def execGenkeyNew (slot : Half) (s : State) : StepOutcome :=
  plainCommand Config.opGenkey Config.genkeyNewMode slot s

/-- RANDOM (R106): `send_command 0x1B, 0x00, 0x0000, 0`. -/
def execRandom (s : State) : StepOutcome :=
  plainCommand Config.opRandom 0x00 0x0000 s

end Sys2Proof.Machine
end

