-- ==== Sys2Proof/Machine/Dispatch.lean ====
section
/-! DEFINITION. One arm per instruction. -/

namespace Sys2Proof.Machine

def exec (i : Instr) (s : State) : Host.Outcome State Fault Refusal :=
  match i with
  | .crc16 data => Sys2Proof.Machine.execCrc16 data s
  | .stage idx b => Sys2Proof.Machine.execStage idx b s
  | .fetch idx => Sys2Proof.Machine.execFetch idx s
  | .sendCommand op p1 p2 n => Sys2Proof.Machine.execSendCommand op p1 p2 n s
  | .read zone addr len => Sys2Proof.Machine.execRead zone addr len s
  | .write zone addr len => Sys2Proof.Machine.execWrite zone addr len s
  | .recv m => Sys2Proof.Machine.execRecv m s
  | .status => Sys2Proof.Machine.execStatus s
  | .reset => Sys2Proof.Machine.execReset s
  | .readCmd zone size addr => Sys2Proof.Machine.execReadCmd zone size addr s
  | .writeCmd zone size addr => Sys2Proof.Machine.execWriteCmd zone size addr s
  | .lockConfig => Sys2Proof.Machine.execLockConfig s
  | .lockDataOtp => Sys2Proof.Machine.execLockDataOtp s
  | .lockSlot0 => Sys2Proof.Machine.execLockSlot0 s
  | .genkeyNew slot => Sys2Proof.Machine.execGenkeyNew slot s
  | .random => Sys2Proof.Machine.execRandom s
  | .complete st data => Sys2Proof.Machine.execComplete st data s

end Sys2Proof.Machine
end

