-- ==== Sys2Proof/Machine/Fetch.lean ====
section
/-! DEFINITION. Taking the next input: the block has no program counter, its "next instruction" is the next request of
the host or completion of the transport (10_state.md R22, R32; 60_exceptions.md R130). -/

namespace Sys2Proof.Machine

/-- The inputs after a packet's first instruction: the rest of its bytes, where there are any, come next. -/
def remaining (f : Format) (bytes : List Byte) (rest : List Input) : List Input :=
  match bytes with
  | [] => rest
  | b :: bs => .packet ⟨f, b :: bs⟩ :: rest

/-- Takes the next instruction from the inputs. -/
def fetch (s : State) : Fetched :=
  match s.faults, s.inputs with
  | (f, req) :: _, _ => .halted f req
  | [], [] => .wait
  | [], .typed instr :: rest => .run instr { s with inputs := rest }
  | [], .packet p :: rest =>
    match decode p with
    | .error e => .reject e
    | .ok (instr, bytes) => .run instr { s with inputs := remaining p.format bytes rest }

/-- The state with an instruction of the opcode table placed as the next input. -/
def placeTableWord (s : State) (nbits w : Nat) : State :=
  { s with inputs := .packet (tablePacket nbits w) :: s.inputs }

end Sys2Proof.Machine
end

