-- ==== Sys2Proof/Machine/Step.lean ====
section
/-! DEFINITION. One step of the machine: one host request or one completion (00_scope.md R14), or waiting for one. -/

namespace Sys2Proof.Machine

/-- Takes the next input and runs it. With no input the block waits and nothing changes (70_reset_and_hazards.md R142,
R152); once FAULTS is not empty no step is taken (60_exceptions.md R125). -/
def step (s : State) : Host.Outcome State Fault Refusal :=
  match fetch s with
  | .halted f req => .fault (.halted f req)
  | .wait => .next s
  | .reject e => .refused (.undecodable e)
  | .run instr s' => exec instr s'

/-- The state with that instruction of the opcode table as its next input. The program is the host's request sequence,
a parameter of the run (R22, R32): this stands for giving it (log 2). -/
def State.withFetchWord (s : State) (nbits w : Nat) : State := placeTableWord s nbits w

end Sys2Proof.Machine
end

