-- ==== Sys2Proof/Safety.lean ====
section
/-! DEFINITION. The terms the claims are stated in: which states are ready for a request, what a step that sends a
frame leaves, the classes of instructions, the causes of each model fault, and the invariant of the block. -/

namespace Sys2Proof.Machine

/-- The block can take a buffer request: no fault has been raised (R125) and the buffer is not on loan (R26). -/
abbrev State.Free (s : State) : Prop := s.faults = [] ∧ s.xfer = .idle

/-- No fault has been raised, and a transfer is in flight. -/
abbrev State.OnLoan (s : State) : Prop := s.faults = [] ∧ s.xfer ≠ .idle

/-- The payload stands staged in BUF[6 .. 5+n] (41_framer.md R82). -/
abbrev State.Staged (s : State) (payload : List Byte) : Prop :=
  ∀ k, k < payload.length → s.buf.read (6 + k) = payload[k]?

/-- The payload fits a frame (R83). -/
abbrev State.Fits (s : State) (n : Nat) : Prop := n ≤ 248 ∧ n + 8 ≤ s.params.bufSize

/-- What a request that sends a command frame leaves (R82): CRC_REG is the CRC over bytes 1 to 5+n, the frame stands
in cells 0 to n+7 and every other cell is as before, XFER and HIST have the one write transfer, the host has OK, and
nothing else changes. -/
def Sent (s : State) (op p1 : Byte) (p2 : Half) (payload : List Byte) (t : State) : Prop :=
  (∀ j, t.buf.read j =
    if j < payload.length + 8 then (commandFrame s.params.wordAddr op p1 p2 payload)[j]? else s.buf.read j) ∧
  t = { s with
    buf := t.buf
    crcReg := crc16 (crcSpan op p1 p2 payload)
    xfer := .write (payload.length + 8)
    hist := s.hist ++ [.w (commandFrame s.params.wordAddr op p1 p2 payload)]
    replies := s.replies ++ [.result .ok] }

/-- The instructions that frame a command (R82, R84, R85, R100 to R106). -/
def framesCommand : Instr → Bool
  | .crc16 _ => false
  | .stage _ _ => false
  | .fetch _ => false
  | .sendCommand _ _ _ _ => true
  | .read _ _ _ => true
  | .write _ _ _ => true
  | .recv _ => false
  | .status => false
  | .reset => false
  | .readCmd _ _ _ => true
  | .writeCmd _ _ _ => true
  | .lockConfig => true
  | .lockDataOtp => true
  | .lockSlot0 => true
  | .genkeyNew _ => true
  | .random => true
  | .complete _ _ => false

/-- The instructions that issue a transfer (R90). -/
def issuesTransfer : Instr → Bool
  | .crc16 _ => false
  | .stage _ _ => false
  | .fetch _ => false
  | .sendCommand _ _ _ _ => true
  | .read _ _ _ => true
  | .write _ _ _ => true
  | .recv _ => true
  | .status => false
  | .reset => false
  | .readCmd _ _ _ => true
  | .writeCmd _ _ _ => true
  | .lockConfig => true
  | .lockDataOtp => true
  | .lockSlot0 => true
  | .genkeyNew _ => true
  | .random => true
  | .complete _ _ => false

/-- The requests that touch the buffer (R87). -/
def usesBuffer : Instr → Bool
  | .crc16 _ => false
  | .stage _ _ => true
  | .fetch _ => true
  | .sendCommand _ _ _ _ => true
  | .read _ _ _ => true
  | .write _ _ _ => true
  | .recv _ => true
  | .status => false
  | .reset => false
  | .readCmd _ _ _ => true
  | .writeCmd _ _ _ => true
  | .lockConfig => true
  | .lockDataOtp => true
  | .lockSlot0 => true
  | .genkeyNew _ => true
  | .random => true
  | .complete _ _ => false

/-- The length operand READ and WRITE check (R88); every other instruction passes. -/
def sizeAccepted : Instr → Bool
  | .crc16 _ => true
  | .stage _ _ => true
  | .fetch _ => true
  | .sendCommand _ _ _ _ => true
  | .read _ _ len => len == 4 || len == 32
  | .write _ _ len => len == 4 || len == 32
  | .recv _ => true
  | .status => true
  | .reset => true
  | .readCmd _ _ _ => true
  | .writeCmd _ _ _ => true
  | .lockConfig => true
  | .lockDataOtp => true
  | .lockSlot0 => true
  | .genkeyNew _ => true
  | .random => true
  | .complete _ _ => true

/-- The payload length of the frame an instruction asks for. -/
def payloadLength : Instr → Option Nat
  | .crc16 _ => none
  | .stage _ _ => none
  | .fetch _ => none
  | .sendCommand _ _ _ n => some n
  | .read _ _ _ => some 0
  | .write _ _ len => some len
  | .recv _ => none
  | .status => none
  | .reset => none
  | .readCmd _ _ _ => some 0
  | .writeCmd _ size _ => some (accessLength size)
  | .lockConfig => some 0
  | .lockDataOtp => some 0
  | .lockSlot0 => some 0
  | .genkeyNew _ => some 0
  | .random => some 0
  | .complete _ _ => none

/-- The cause of each model fault, from the table of 60_exceptions.md R124 with the precedence of R131. -/
def FaultCause (f : FaultCode) (instr : Instr) (s : State) : Prop :=
  match f with
  | .bufRange =>
    s.xfer = .idle ∧ ∃ idx, s.params.bufSize ≤ idx ∧ (instr = .fetch idx ∨ ∃ b, instr = .stage idx b)
  | .unwritten =>
    s.xfer = .idle ∧
      ((∃ idx, idx < s.params.bufSize ∧ instr = .fetch idx ∧ s.buf.read idx = none) ∨
       (∃ n, payloadLength instr = some n ∧ sizeAccepted instr = true ∧ s.Fits n ∧
          ∃ k, k < n ∧ s.buf.read (6 + k) = none))
  | .frameRange =>
    s.xfer = .idle ∧ ∃ op p1 p2 n, instr = .sendCommand op p1 p2 n ∧ (n > 248 ∨ n + 8 > s.params.bufSize)
  | .recvRange => s.xfer = .idle ∧ ∃ m, instr = .recv m ∧ (m = 0 ∨ m > s.params.bufSize)
  | .spuriousCompletion => s.xfer = .idle ∧ ∃ st d, instr = .complete st d
  | .completionLength =>
    ∃ st d, instr = .complete st d ∧
      ((∃ len, s.xfer = .write len ∧ d ≠ []) ∨ (∃ m, s.xfer = .read m ∧ st = .ok ∧ d.length ≠ m))

/-- Runs instructions one after the other, up to the first that answers no next state. -/
def execAll : List Instr → State → StepOutcome
  | [], s => .next s
  | i :: rest, s =>
    match exec i s with
    | .next t => execAll rest t
    | .fault r => .fault r
    | .refused r => .refused r

/-- The STAGE requests that put a payload into BUF[6 ..] (R82). -/
def stagePayload (payload : List Byte) : List Instr :=
  payload.mapIdx fun k b => .stage (6 + k) b

/-- Applies a function to the next state of an outcome. -/
def mapNext (g : State → State) : StepOutcome → StepOutcome
  | .next t => .next (g t)
  | .fault r => .fault r
  | .refused r => .refused r

/-! ## The invariant -/

/-- An issue record of HIST: `W` or `R` (R29). -/
def isIssue : Transfer → Bool
  | .w _ | .r _ => true
  | .c _ _ => false

/-- The lengths of XFER are in range (10_state.md R33). -/
def State.XferInRange (s : State) : Prop :=
  (∀ len, s.xfer = .write len → 8 ≤ len ∧ len ≤ 256 ∧ len ≤ s.params.bufSize) ∧
  (∀ len, s.xfer = .read len → 1 ≤ len ∧ len ≤ s.params.bufSize)

/-- HIST holds one issue more than completions while a transfer is in flight, and as many otherwise (R33). -/
abbrev State.HistBalanced (s : State) : Prop :=
  s.hist.countP isIssue = s.hist.countP (fun r => !isIssue r) + (if s.xfer = .idle then 0 else 1)

/-- HIST ends in the record of the transfer in flight, and the bytes a write transfer sends still stand in the buffer
(20_memory.md R42, 41_framer.md R91); with none in flight HIST is empty or ends in a completion. -/
def State.LoanKept (s : State) : Prop :=
  (s.xfer = .idle → ∀ last, s.hist.getLast? = some last → isIssue last = false) ∧
  (∀ len, s.xfer = .write len → ∃ frame, s.hist.getLast? = some (.w frame) ∧ frame.length = len ∧
    memRead s.params.bufSize s.buf 0 len = .ok frame) ∧
  (∀ len, s.xfer = .read len → s.hist.getLast? = some (.r len))

/-- What a record of HIST holds: a write, a well-formed frame that begins with the word-address marker (R50, R55); a
completion that is not OK, no bytes (R29). -/
def recordOk (wordAddr : Byte) : Transfer → Bool
  | .w frame => frameOk frame && frame.head? == some wordAddr
  | .r _ => true
  | .c st data => st == .ok || data.isEmpty

/-- The invariant of the block: valid parameters (R8), a canonical buffer inside its bounds (R24), the two rules of
R33, the transfer in flight on record with its bytes kept, every frame sent well-formed, at most one fault (R125). -/
structure State.Inv (s : State) : Prop where
  params : s.params.Valid
  canonical : s.buf.wf
  inBuffer : ∀ c ∈ s.buf, c.1 < s.params.bufSize
  xferInRange : s.XferInRange
  histBalanced : s.HistBalanced
  loanKept : s.LoanKept
  recordsOk : ∀ r ∈ s.hist, recordOk s.params.wordAddr r = true
  oneFault : s.faults.length ≤ 1

end Sys2Proof.Machine
end

