-- ==== Sys2Proof/Certificates/Slice0/Obligations.lean ====
section
/-! DEFINITION. The statements for the provers, one definition each, from the numbered rules of spec/. -/

open Sys2Proof Sys2Proof.Machine

/-! ## The CRC unit -/

/-- R70, R71, R72: the corner cases and examples they give, the eight intermediate values of CRC_BYTE(0, 0x01) and the
CRC of every sequence of zero bytes among them. -/
def Obligations.CrcReferenceVectors : Prop :=
  crcBit 0x0000 false = 0x0000 ∧ crcBit 0x0000 true = 0x8005 ∧ crcBit 0x8000 true = 0x0000 ∧
  crcBit 0x8000 false = 0x8005 ∧ crcBit 0x8005 false = 0x800F ∧ crcByte 0x0000 0x00 = 0x0000 ∧
  crcByte 0x0000 0x80 = 0x8005 ∧ crcByte 0x0000 0x01 = 0x8303 ∧
  ((List.range 8).map fun k => (List.range (k + 1)).foldl (fun r j => crcBit r ((0x01 : Byte).getLsbD j)) 0x0000) =
    [0x8005, 0x800F, 0x801B, 0x8033, 0x8063, 0x80C3, 0x8183, 0x8303] ∧
  crc16 [] = 0x0000 ∧ (∀ n, crc16 (List.replicate n 0x00) = 0x0000) ∧ crc16 [0x07, 0x1B, 0x00, 0x00, 0x00] = 0xCD24

/-- R74: the value is that of a bit-serial unit that takes one CRC_BIT step per data bit, 8 per byte, LSB first. -/
def Obligations.CrcIsBitSerial : Prop :=
  ∀ s : List Byte,
    crc16 s = (s.flatMap fun b => (List.range 8).map fun k => b.getLsbD k).foldl
      (fun (r : Half) (d : Bool) => if d = r.getLsbD 15 then r <<< 1 else (r <<< 1) ^^^ 0x8005) (0x0000 : Half)

/-- R75, its laws for all inputs. -/
def Obligations.CrcLaws : Prop :=
  crc16 [] = 0x0000 ∧
  (∀ s, crc16 ([0x00] ++ s) = crc16 s) ∧
  (∀ s t : List Byte, s.length = t.length → crc16 (List.zipWith (· ^^^ ·) s t) = crc16 s ^^^ crc16 t) ∧
  (∀ s t, crc16 (s ++ t) = crcFrom (crc16 s) t) ∧
  (∀ s t, s = t → crc16 s = crc16 t)

/-- From R70 to R72: byte sequences of one length that differ in exactly one byte never share their CRC. -/
def Obligations.CrcDetectsOneWrongByte : Prop :=
  ∀ (before after : List Byte) (b c : Byte), b ≠ c → crc16 (before ++ b :: after) ≠ crc16 (before ++ c :: after)

/-- R73: CRC16 answers its CRC and keeps it in CRC_REG, busy or not, and changes nothing else. -/
def Obligations.Crc16AnswersAndKeepsItsResult : Prop :=
  ∀ (s : State) (data : List Byte), s.faults = [] →
    exec (.crc16 data) s = .next { s with
      crcReg := crc16 data
      replies := s.replies ++ [.result (.okCrc (crc16 data))] }

/-! ## The buffer requests -/

/-- R80: STAGE writes its cell and no other; F_BUF_RANGE past the buffer; BUSY while it is on loan. -/
def Obligations.StageFollowsItsRule : Prop :=
  ∀ (s : State) (idx : Nat) (b : Byte), s.faults = [] →
    (s.xfer = .idle → idx < s.params.bufSize →
      ∃ t, exec (.stage idx b) s = .next t ∧
        (∀ j, t.buf.read j = if j = idx then some b else s.buf.read j) ∧
        t = { s with buf := t.buf, replies := s.replies ++ [.result .ok] }) ∧
    (s.xfer = .idle → idx ≥ s.params.bufSize →
      exec (.stage idx b) s = .next { s with faults := [(.bufRange, .stage idx b)] }) ∧
    (s.xfer ≠ .idle → exec (.stage idx b) s = .next { s with replies := s.replies ++ [.result .busy] })

/-- R81: FETCH answers the byte of a written cell; F_BUF_RANGE past the buffer; F_UNWRITTEN on ⊥; BUSY while the
buffer is on loan. It changes no cell. -/
def Obligations.FetchFollowsItsRule : Prop :=
  ∀ (s : State) (idx : Nat), s.faults = [] →
    (∀ b, s.xfer = .idle → idx < s.params.bufSize → s.buf.read idx = some b →
      exec (.fetch idx) s = .next { s with replies := s.replies ++ [.result (.okByte b)] }) ∧
    (s.xfer = .idle → idx ≥ s.params.bufSize →
      exec (.fetch idx) s = .next { s with faults := [(.bufRange, .fetch idx)] }) ∧
    (s.xfer = .idle → idx < s.params.bufSize → s.buf.read idx = none →
      exec (.fetch idx) s = .next { s with faults := [(.unwritten, .fetch idx)] }) ∧
    (s.xfer ≠ .idle → exec (.fetch idx) s = .next { s with replies := s.replies ++ [.result .busy] })

/-! ## Framing and sending -/

/-- R82, R83: SEND_COMMAND with a staged payload that fits sends its frame; past the length byte or the buffer it
raises F_FRAME_RANGE, with an unstaged payload cell F_UNWRITTEN; BUSY while the buffer is on loan. -/
def Obligations.SendCommandFollowsItsRule : Prop :=
  ∀ (s : State) (op p1 : Byte) (p2 : Half) (n : Nat), s.faults = [] →
    (∀ payload, payload.length = n → s.xfer = .idle → n ≤ 248 → n + 8 ≤ s.params.bufSize → s.Staged payload →
      ∃ t, exec (.sendCommand op p1 p2 n) s = .next t ∧ Sent s op p1 p2 payload t) ∧
    (s.xfer = .idle → n > 248 ∨ n + 8 > s.params.bufSize →
      exec (.sendCommand op p1 p2 n) s = .next { s with faults := [(.frameRange, .sendCommand op p1 p2 n)] }) ∧
    (s.xfer = .idle → n ≤ 248 → n + 8 ≤ s.params.bufSize → (∃ k, k < n ∧ s.buf.read (6 + k) = none) →
      exec (.sendCommand op p1 p2 n) s = .next { s with faults := [(.unwritten, .sendCommand op p1 p2 n)] }) ∧
    (s.xfer ≠ .idle →
      exec (.sendCommand op p1 p2 n) s = .next { s with replies := s.replies ++ [.result .busy] })

/-- R84: READ of 4 or 32 bytes sends the 8-byte frame of opcode 0x02 and its param1; another length is SIZE_ERROR on
a free block; BUSY while the buffer is on loan, and for another length then SIZE_ERROR or BUSY, whichever the run
chooses (R89; the counter of free choices is the model's own, log 6). -/
def Obligations.ReadFollowsItsRule : Prop :=
  ∀ (s : State) (zone : Byte) (addr : Half) (len : Nat), s.params.Valid → s.faults = [] →
    (s.xfer = .idle → len = 4 ∨ len = 32 →
      ∃ t, exec (.read zone addr len) s = .next t ∧
        Sent s 0x02 ((zone &&& 0x7F) ||| (if len = 32 then 0x80 else 0x00)) addr [] t) ∧
    (s.xfer = .idle → len ≠ 4 → len ≠ 32 →
      exec (.read zone addr len) s = .next { s with replies := s.replies ++ [.result .sizeError] }) ∧
    (s.xfer ≠ .idle → len = 4 ∨ len = 32 →
      exec (.read zone addr len) s = .next { s with replies := s.replies ++ [.result .busy] }) ∧
    (s.xfer ≠ .idle → len ≠ 4 → len ≠ 32 → ∃ v : Result, (v = .sizeError ∨ v = .busy) ∧
      exec (.read zone addr len) s =
        .next { s with replies := s.replies ++ [.result v], choices := s.choices + 1 })

/-- R85: WRITE of 4 or 32 staged bytes sends the frame of opcode 0x12 with that payload; an unstaged payload cell
raises F_UNWRITTEN; another length is SIZE_ERROR on a free block; BUSY while the buffer is on loan, and for another
length then SIZE_ERROR or BUSY, whichever the run chooses (R89; the counter of free choices is the model's own,
log 6). -/
def Obligations.WriteFollowsItsRule : Prop :=
  ∀ (s : State) (zone : Byte) (addr : Half) (len : Nat), s.params.Valid → s.faults = [] →
    (∀ payload, payload.length = len → s.xfer = .idle → len = 4 ∨ len = 32 → s.Staged payload →
      ∃ t, exec (.write zone addr len) s = .next t ∧
        Sent s 0x12 ((zone &&& 0x7F) ||| (if len = 32 then 0x80 else 0x00)) addr payload t) ∧
    (s.xfer = .idle → len = 4 ∨ len = 32 → (∃ k, k < len ∧ s.buf.read (6 + k) = none) →
      exec (.write zone addr len) s = .next { s with faults := [(.unwritten, .write zone addr len)] }) ∧
    (s.xfer = .idle → len ≠ 4 → len ≠ 32 →
      exec (.write zone addr len) s = .next { s with replies := s.replies ++ [.result .sizeError] }) ∧
    (s.xfer ≠ .idle → len = 4 ∨ len = 32 →
      exec (.write zone addr len) s = .next { s with replies := s.replies ++ [.result .busy] }) ∧
    (s.xfer ≠ .idle → len ≠ 4 → len ≠ 32 → ∃ v : Result, (v = .sizeError ∨ v = .busy) ∧
      exec (.write zone addr len) s =
        .next { s with replies := s.replies ++ [.result v], choices := s.choices + 1 })

/-- R89: where a bad length and a busy block meet, each of READ and WRITE answers one of SIZE_ERROR and BUSY, and no state
of the block changes; where only one applies they answer that one; STAGE, FETCH, SEND_COMMAND and RECV answer BUSY
before any range or unwritten-cell check. The counter of free choices, the model's own (log 6), advances; the statement
holds whatever the choice is. -/
def Obligations.SizeAndBusyPrecedence : Prop :=
  ∀ s : State, s.faults = [] →
    (∀ zone addr len, len ≠ 4 → len ≠ 32 → s.xfer ≠ .idle →
      (∃ v : Result, (v = .sizeError ∨ v = .busy) ∧ exec (.read zone addr len) s =
        .next { s with replies := s.replies ++ [.result v], choices := s.choices + 1 }) ∧
      (∃ v : Result, (v = .sizeError ∨ v = .busy) ∧ exec (.write zone addr len) s =
        .next { s with replies := s.replies ++ [.result v], choices := s.choices + 1 })) ∧
    (∀ zone addr len, len ≠ 4 → len ≠ 32 → s.xfer = .idle →
      exec (.read zone addr len) s = .next { s with replies := s.replies ++ [.result .sizeError] } ∧
      exec (.write zone addr len) s = .next { s with replies := s.replies ++ [.result .sizeError] }) ∧
    (∀ zone addr len, len = 4 ∨ len = 32 → s.xfer ≠ .idle →
      exec (.read zone addr len) s = .next { s with replies := s.replies ++ [.result .busy] } ∧
      exec (.write zone addr len) s = .next { s with replies := s.replies ++ [.result .busy] }) ∧
    (∀ i, (∃ idx b, i = .stage idx b) ∨ (∃ idx, i = .fetch idx) ∨ (∃ op p1 p2 n, i = .sendCommand op p1 p2 n) ∨
        (∃ m, i = .recv m) → s.xfer ≠ .idle →
      exec i s = .next { s with replies := s.replies ++ [.result .busy] })

/-- R56: bits 6:0 of the zone byte pass through, bit 7 is the access size. -/
def Obligations.ZoneBitsPassThrough : Prop :=
  ∀ (zone : Byte) (len : Nat),
    (∀ k, k < 7 → (param1 zone len).getLsbD k = zone.getLsbD k) ∧
    (param1 zone len).getLsbD 7 = decide (len = 32)

/-- R86: RECV issues one read transfer and leaves the buffer as it is; F_RECV_RANGE for 0 or past the buffer; BUSY
while the buffer is on loan. -/
def Obligations.RecvFollowsItsRule : Prop :=
  ∀ (s : State) (m : Nat), s.faults = [] →
    (s.xfer = .idle → 1 ≤ m → m ≤ s.params.bufSize →
      exec (.recv m) s = .next { s with
        xfer := .read m
        hist := s.hist ++ [.r m]
        replies := s.replies ++ [.result .ok] }) ∧
    (s.xfer = .idle → m < 1 ∨ m > s.params.bufSize →
      exec (.recv m) s = .next { s with faults := [(.recvRange, .recv m)] }) ∧
    (s.xfer ≠ .idle → exec (.recv m) s = .next { s with replies := s.replies ++ [.result .busy] })

/-- R87: while the buffer is on loan STAGE, FETCH, SEND_COMMAND, READ, WRITE and RECV, and so the wire commands (log 7),
answer BUSY and change no state; for a READ or WRITE of another length than 4 or 32, R89 allows SIZE_ERROR instead, and
the model's counter of free choices advances (log 6); CRC16 and STATUS are answered normally; RESET is refused. -/
def Obligations.BusyTurnsBufferRequestsAway : Prop :=
  ∀ s : State, s.OnLoan →
    (∀ i, usesBuffer i = true → sizeAccepted i = true →
      exec i s = .next { s with replies := s.replies ++ [.result .busy] }) ∧
    (∀ i, usesBuffer i = true → sizeAccepted i = false → ∃ v : Result, (v = .sizeError ∨ v = .busy) ∧
      exec i s = .next { s with replies := s.replies ++ [.result v], choices := s.choices + 1 }) ∧
    (∀ data, exec (.crc16 data) s = .next { s with
      crcReg := crc16 data
      replies := s.replies ++ [.result (.okCrc (crc16 data))] }) ∧
    exec .status s = .next { s with replies := s.replies ++ [.result (.okStatus s.lastStatus true)] } ∧
    exec .reset s = .refused .resetWhileBusy

/-! ## The wire commands -/

/-- R100: READ.CMD sends the frame of opcode 0x02 with its zone bits, its size bit and its address. -/
def Obligations.ReadCmdSendsItsFrame : Prop :=
  ∀ (s : State) (zone : BitVec 7) (size : AccessSize) (addr : Half), s.params.Valid → s.Free →
    ∃ t, exec (.readCmd zone size addr) s = .next t ∧
      Sent s 0x02 ((if size = .bytes32 then 1#1 else 0#1) ++ zone) addr [] t

/-- R101: WRITE.CMD sends the frame of opcode 0x12 with the staged payload of its size. -/
def Obligations.WriteCmdSendsItsFrame : Prop :=
  ∀ (s : State) (zone : BitVec 7) (size : AccessSize) (addr : Half) (payload : List Byte), s.params.Valid →
    s.Free → payload.length = (if size = .bytes32 then 32 else 4) → s.Staged payload →
    ∃ t, exec (.writeCmd zone size addr) s = .next t ∧
      Sent s 0x12 ((if size = .bytes32 then 1#1 else 0#1) ++ zone) addr payload t

/-- R102, R103, R104, R106: the frames of the three LOCK commands and of RANDOM, byte for byte. -/
def Obligations.LockAndRandomFrames : Prop :=
  ∀ s : State, s.params.Valid → s.Free →
    (∃ t, exec .lockConfig s = .next t ∧ Sent s 0x17 0x80 0x0000 [] t ∧
      t.hist = s.hist ++ [.w [s.params.wordAddr, 0x07, 0x17, 0x80, 0x00, 0x00, 0x39, 0x8D]]) ∧
    (∃ t, exec .lockDataOtp s = .next t ∧ Sent s 0x17 0x81 0x0000 [] t ∧
      t.hist = s.hist ++ [.w [s.params.wordAddr, 0x07, 0x17, 0x81, 0x00, 0x00, 0x3A, 0x07]]) ∧
    (∃ t, exec .lockSlot0 s = .next t ∧ Sent s 0x17 0x82 0x0000 [] t ∧
      t.hist = s.hist ++ [.w [s.params.wordAddr, 0x07, 0x17, 0x82, 0x00, 0x00, 0x3A, 0x08]]) ∧
    (∃ t, exec .random s = .next t ∧ Sent s 0x1B 0x00 0x0000 [] t ∧
      t.hist = s.hist ++ [.w [s.params.wordAddr, 0x07, 0x1B, 0x00, 0x00, 0x00, 0x24, 0xCD]])

/-- R105: GENKEY.NEW sends `P_WORD_ADDR 07 40 04 slot[7:0] slot[15:8] crc[7:0] crc[15:8]`. -/
def Obligations.GenkeySendsItsSlot : Prop :=
  ∀ (s : State) (slot : Half), s.params.Valid → s.Free →
    ∃ t, exec (.genkeyNew slot) s = .next t ∧ Sent s 0x40 0x04 slot [] t ∧
      ∀ crc : Half, crc = crc16 [0x07, 0x40, 0x04, slot.setWidth 8, (slot >>> 8).setWidth 8] →
        t.hist = s.hist ++ [.w [s.params.wordAddr, 0x07, 0x40, 0x04, slot.setWidth 8, (slot >>> 8).setWidth 8,
          crc.setWidth 8, (crc >>> 8).setWidth 8]]

/-- R50 to R55: a command frame has n + 8 bytes in the order of R50, its length byte is its length less one, its CRC
field is the CRC over bytes 1 to 5+n low byte first, and the frame checker of R55 accepts it. -/
def Obligations.CommandFramesAreWellFormed : Prop :=
  ∀ (wordAddr op p1 : Byte) (p2 : Half) (payload : List Byte), payload.length ≤ 248 →
    ∃ crc : Half,
      commandFrame wordAddr op p1 p2 payload =
        [wordAddr, BitVec.ofNat 8 (payload.length + 7), op, p1, p2.setWidth 8, (p2 >>> 8).setWidth 8] ++ payload ++
          [crc.setWidth 8, (crc >>> 8).setWidth 8] ∧
      crc = crc16 (((commandFrame wordAddr op p1 p2 payload).take (payload.length + 6)).drop 1) ∧
      (commandFrame wordAddr op p1 p2 payload).length = payload.length + 8 ∧
      (BitVec.ofNat 8 (payload.length + 7)).toNat + 1 = (commandFrame wordAddr op p1 p2 payload).length ∧
      frameOk (commandFrame wordAddr op p1 p2 payload) = true

/-- R52, R82: the CRC span leaves byte 0 out, so CRC_REG after a framed command does not depend on P_WORD_ADDR. -/
def Obligations.CrcIgnoresWordAddress : Prop :=
  ∀ (i : Instr) (s t u : State) (w : Byte), framesCommand i = true →
    exec i s = .next t → exec i { s with params := { s.params with wordAddr := w } } = .next u →
    t.crcReg = u.crcReg

/-! ## The completion -/

/-- R126: a write transfer completes with any status and no bytes; BUF is as it was. -/
def Obligations.WriteCompletionKeepsTheBuffer : Prop :=
  ∀ (s : State) (len : Nat) (st : Status), s.faults = [] → s.xfer = .write len →
    exec (.complete st []) s = .next { s with
      lastStatus := .of st
      hist := s.hist ++ [.c st []]
      xfer := .idle
      replies := s.replies ++ [.notify .write st] }

/-- R126, R43: a read transfer of m bytes that completes with OK and m bytes leaves them in cells 0 to m-1 and every
other cell as it was. -/
def Obligations.ReadCompletionLandsItsBytes : Prop :=
  ∀ (s : State) (data : List Byte), s.faults = [] → s.xfer = .read data.length →
    data.length ≤ s.params.bufSize →
    ∃ t, exec (.complete .ok data) s = .next t ∧
      (∀ j, t.buf.read j = if j < data.length then data[j]? else s.buf.read j) ∧
      t = { s with
        buf := t.buf
        lastStatus := .of .ok
        hist := s.hist ++ [.c .ok data]
        xfer := .idle
        replies := s.replies ++ [.notify .read .ok] }

/-- R126, R43, R29: a read transfer that completes with another status leaves cells 0 to m-1 holding ⊥ and every other
cell as it was. Its HIST record is the C(status, d) of R126 as R29 defines it, without bytes; that R126 uses R29's
notation is the model's reading (log 10), and it shows only where the event carries bytes. -/
def Obligations.FailedReadInvalidatesItsCells : Prop :=
  ∀ (s : State) (m : Nat) (st : Status) (data : List Byte), s.faults = [] → s.xfer = .read m → st ≠ .ok →
    ∃ t, exec (.complete st data) s = .next t ∧
      (∀ j, t.buf.read j = if j < m then none else s.buf.read j) ∧
      t = { s with
        buf := t.buf
        lastStatus := .of st
        hist := s.hist ++ [.c st []]
        xfer := .idle
        replies := s.replies ++ [.notify .read st] }

/-- R126, R131: a completion with none in flight raises F_SPURIOUS_COMPLETION; one with the wrong number of bytes
raises F_COMPLETION_LENGTH; nothing else changes. -/
def Obligations.InconsistentCompletionsFault : Prop :=
  ∀ (s : State) (st : Status) (data : List Byte), s.faults = [] →
    (s.xfer = .idle →
      exec (.complete st data) s = .next { s with faults := [(.spuriousCompletion, .complete st data)] }) ∧
    (∀ len, s.xfer = .write len → data ≠ [] →
      exec (.complete st data) s = .next { s with faults := [(.completionLength, .complete st data)] }) ∧
    (∀ m, s.xfer = .read m → st = .ok → data.length ≠ m →
      exec (.complete st data) s = .next { s with faults := [(.completionLength, .complete st data)] })

/-- R122, R134: in a state the invariant admits, a transfer in flight can complete with each of the four statuses, and
the block is then free for the next request. -/
def Obligations.EveryStatusCanComplete : Prop :=
  ∀ (s : State) (st : Status), s.Inv → s.OnLoan →
    ∃ data t, exec (.complete st data) s = .next t ∧ t.Free ∧ t.lastStatus = .of st

/-! ## Status and reset -/

/-- R95: STATUS answers LAST_STATUS and BUSY, busy or not, and changes nothing. -/
def Obligations.StatusAnswersItsPair : Prop :=
  ∀ s : State, s.faults = [] →
    exec .status s = .next { s with
      replies := s.replies ++ [.result (.okStatus s.lastStatus (decide (s.xfer ≠ .idle)))] }

/-- R140, R141: RESET on a free block puts CRC_REG, BUF, XFER and LAST_STATUS to their reset values and keeps FAULTS
and HIST (the parameters and the model's own fields are no state of the block; that they stay is the model's, log 1, 2,
3, 6); while a transfer is in flight it is refused. -/
def Obligations.ResetFollowsItsRule : Prop :=
  ∀ s : State, s.faults = [] →
    (s.xfer = .idle → ∃ t, exec .reset s = .next t ∧
      t.crcReg = 0x0000 ∧ (∀ j, t.buf.read j = none) ∧ t.xfer = .idle ∧ t.lastStatus = .none ∧
      t = { s with
        crcReg := t.crcReg
        buf := t.buf
        xfer := t.xfer
        lastStatus := t.lastStatus
        replies := s.replies ++ [.result .ok] }) ∧
    (s.xfer ≠ .idle → exec .reset s = .refused .resetWhileBusy)

/-- R20, R142: the six elements of the initial state. -/
def Obligations.ResetValues : Prop :=
  State.reset.crcReg = 0x0000 ∧ (∀ j, State.reset.buf.read j = none) ∧ State.reset.xfer = .idle ∧
  State.reset.lastStatus = .none ∧ State.reset.faults = [] ∧ State.reset.hist = []

/-! ## Faults -/

/-- R125: once FAULTS is not empty no agent takes a further step, RESET included, and no input does. -/
def Obligations.AFaultIsFinal : Prop :=
  ∀ s : State, s.faults ≠ [] →
    ∃ f req, (f, req) ∈ s.faults ∧ step s = .fault (.halted f req) ∧
      ∀ i, exec i s = .fault (.halted f req)

/-- R124, R131: in a state the invariant admits, an instruction raises a fault exactly when the table's cause holds,
with the request that raised it, and with no other state change. -/
def Obligations.FaultsHaveTheirCauses : Prop :=
  ∀ (s : State) (i : Instr) (f : FaultCode), s.Inv → s.faults = [] →
    (FaultCause f i s ↔ ∃ t, exec i s = .next t ∧ ∃ req, (f, req) ∈ t.faults) ∧
    (FaultCause f i s → exec i s = .next { s with faults := [(f, requestOf i)] })

/-- R13, R14: whichever instruction raises a fault, FAULTS is all that changes. -/
def Obligations.ARaiseChangesOnlyFaults : Prop :=
  ∀ (i : Instr) (s t : State), exec i s = .next t → t.faults ≠ s.faults →
    ∃ f, t = { s with faults := [(f, requestOf i)] }

/-- R121: an error result changes no state of the block and issues no transfer. (The counter of free choices is the
model's own, log 6.) -/
def Obligations.ErrorResultsChangeNothing : Prop :=
  ∀ (i : Instr) (s t : State) (v : Result), v = .sizeError ∨ v = .busy →
    exec i s = .next t → t.replies = s.replies ++ [.result v] →
    t = { s with replies := t.replies, choices := t.choices }

/-! ## The whole machine -/

/-- R90: a request that issues a transfer and answers OK issues exactly one; without OK it issues nothing. Either way
LAST_STATUS stays: the outcome comes only with the completion. -/
def Obligations.SplitPhase : Prop :=
  ∀ (i : Instr) (s t : State), issuesTransfer i = true → exec i s = .next t → t.lastStatus = s.lastStatus ∧
    ((t.replies = s.replies ++ [.result .ok] ∧
      ((∃ frame, t.hist = s.hist ++ [.w frame] ∧ t.xfer = .write frame.length) ∨
       (∃ m, t.hist = s.hist ++ [.r m] ∧ t.xfer = .read m))) ∨
    (t.replies ≠ s.replies ++ [.result .ok] ∧ t.hist = s.hist ∧ t.xfer = s.xfer))

/-- R25, R96: only an issuing request takes XFER from Idle, only COMPLETE takes it back, and there is never a second
transfer in flight. -/
def Obligations.OnlyIssueAndCompleteMoveXfer : Prop :=
  ∀ (i : Instr) (s t : State), exec i s = .next t → t.xfer ≠ s.xfer →
    (s.xfer = .idle ∧ issuesTransfer i = true) ∨
    (s.xfer ≠ .idle ∧ t.xfer = .idle ∧ ∃ st data, i = .complete st data)

/-- R42, R87, R91: while the buffer is on loan no instruction changes a cell but the completion of a read transfer. -/
def Obligations.OnLoanOnlyAReadCompletionWrites : Prop :=
  ∀ (i : Instr) (s t : State), s.xfer ≠ .idle → exec i s = .next t → t.buf ≠ s.buf →
    ∃ m st data, s.xfer = .read m ∧ i = .complete st data

/-- Who writes what (R23, R27, R28, R29, R35; R32 and log 1 for the parameters): CRC_REG only CRC16, a framing request
and RESET; BUF only STAGE, a framing request, COMPLETE and RESET; LAST_STATUS only COMPLETE and RESET; FAULTS and HIST
only grow; parameters and inputs stay. -/
def Obligations.WritersOfEachElement : Prop :=
  ∀ (i : Instr) (s t : State), exec i s = .next t →
    (t.crcReg ≠ s.crcReg → framesCommand i = true ∨ i = .reset ∨ ∃ data, i = .crc16 data) ∧
    (t.buf ≠ s.buf → framesCommand i = true ∨ i = .reset ∨ (∃ idx b, i = .stage idx b) ∨
      ∃ st data, i = .complete st data) ∧
    (t.lastStatus ≠ s.lastStatus → i = .reset ∨ ∃ st data, i = .complete st data) ∧
    (∀ p ∈ s.faults, p ∈ t.faults) ∧ s.hist <+: t.hist ∧ t.params = s.params ∧ t.inputs = s.inputs

/-- R29: the block never reads HIST: whatever stands in it, an instruction does the same and appends the same. -/
def Obligations.HistoryIsNeverRead : Prop :=
  ∀ (i : Instr) (s : State) (h : List Transfer),
    exec i { s with hist := h ++ s.hist } = mapNext (fun t => { t with hist := h ++ t.hist }) (exec i s)

/-- R23: no result depends on the value CRC_REG held: two states that differ in it alone answer alike, up to CRC_REG. -/
def Obligations.CrcRegisterIsNeverRead : Prop :=
  ∀ (i : Instr) (s : State) (v : Half),
    mapNext (fun t => { t with crcReg := 0 }) (exec i { s with crcReg := v }) =
      mapNext (fun t => { t with crcReg := 0 }) (exec i s)

/-- R92: after a write transfer completes with any status, the same request sends the same frame again. -/
def Obligations.ReissueSendsTheSameFrame : Prop :=
  ∀ (i : Instr) (s t1 t2 : State) (st : Status) (frame : List Byte), framesCommand i = true →
    exec i s = .next t1 → t1.hist = s.hist ++ [.w frame] → exec (.complete st []) t1 = .next t2 →
    ∃ t3, exec i t2 = .next t3 ∧ t3.hist = t2.hist ++ [.w frame] ∧ t3.replies = t2.replies ++ [.result .ok]

/-- R93: after a write transfer completes, FETCH of cells 0 to n+7 answers the frame bytes. -/
def Obligations.FrameStaysAfterItsWrite : Prop :=
  ∀ (i : Instr) (s t1 t2 : State) (st : Status) (frame : List Byte) (k : Nat), framesCommand i = true →
    exec i s = .next t1 → t1.hist = s.hist ++ [.w frame] → exec (.complete st []) t1 = .next t2 →
    ∀ b, frame[k]? = some b →
      exec (.fetch k) t2 = .next { t2 with replies := t2.replies ++ [.result (.okByte b)] }

/-- R147: a response is readable only after its read transfer has completed with OK: before that FETCH answers BUSY;
after another status FETCH of a cell below m faults with F_UNWRITTEN. -/
def Obligations.ResponsesAreReadableAfterOk : Prop :=
  ∀ (s t1 : State) (m k : Nat), k < m → exec (.recv m) s = .next t1 → t1.faults = [] → s.xfer = .idle →
    exec (.fetch k) t1 = .next { t1 with replies := t1.replies ++ [.result .busy] } ∧
    (∀ data : List Byte, data.length = m → ∃ t2 b, exec (.complete .ok data) t1 = .next t2 ∧ data[k]? = some b ∧
      exec (.fetch k) t2 = .next { t2 with replies := t2.replies ++ [.result (.okByte b)] }) ∧
    (∀ st data, st ≠ .ok → ∃ t2, exec (.complete st data) t1 = .next t2 ∧
      exec (.fetch k) t2 = .next { t2 with faults := [(.unwritten, .fetch k)] })

/-- R148, R145: a read transfer overwrites a staged payload: after a failed one that covered payload cells, WRITE faults
with F_UNWRITTEN at once and after any STAGE requests that leave one of those cells out; after STAGE requests for the
whole payload it sends its frame. -/
def Obligations.AFailedReadUnstagesThePayload : Prop :=
  ∀ (s t : State) (m : Nat) (st : Status) (data : List Byte) (zone : Byte) (addr : Half) (len : Nat),
    s.Inv → s.xfer = .read m → 6 < m → st ≠ .ok → len = 4 ∨ len = 32 → exec (.complete st data) s = .next t →
    (∀ (stages : List (Nat × Byte)) (k : Nat) (u : State), k < len → 6 + k < m → (∀ p ∈ stages, p.1 ≠ 6 + k) →
      execAll (stages.map fun p => .stage p.1 p.2) t = .next u → u.faults = [] →
      exec (.write zone addr len) u = .next { u with faults := [(.unwritten, .write zone addr len)] }) ∧
    (∀ payload : List Byte, payload.length = len → ∃ u v, execAll (stagePayload payload) t = .next u ∧
      exec (.write zone addr len) u = .next v ∧
      Sent u 0x12 ((zone &&& 0x7F) ||| (if len = 32 then 0x80 else 0x00)) addr payload v)

/-- The invariant holds at reset (R20, R33, R142; the parameter values are the model's choice, log 1). -/
def Obligations.ResetSatisfiesTheInvariant : Prop := State.reset.Inv

/-- R33 with R8, R24, R29, R42, R55, R91 and R125: every step keeps the invariant. Of a completion other than OK it says
that the record carries no bytes (R29; log 10 for a failed read whose event carries some). -/
def Obligations.EveryStepKeepsTheInvariant : Prop :=
  ∀ s t : State, s.Inv → step s = .next t → t.Inv

/-! ## Encodings and the step -/

/-- R61, R63, R50, R54, R56, R64: decoding an encoded well-formed instruction gives it back, with every operand, and
hands back the bytes after it (a completion takes all its packet's bytes). -/
def Obligations.DecodeEncodeRoundTrip : Prop :=
  ∀ (i : Instr) (after : List Byte), wellFormed i = true → ((encode i).format = .event → after = []) →
    decode ⟨(encode i).format, (encode i).bytes ++ after⟩ = .ok (i, after)

/-- R61: a byte sequence that decodes as a host request is that request's encoding and the bytes after it. -/
def Obligations.EveryHostRequestHasOneEncoding : Prop :=
  ∀ (bytes after : List Byte) (i : Instr), decode ⟨.host, bytes⟩ = .ok (i, after) →
    wellFormed i = true ∧ encode i = ⟨.host, (encode i).bytes⟩ ∧ bytes = (encode i).bytes ++ after

/-- R62: reserved selectors are refused, and so is a request shorter than its row's length; neither is a fault. -/
def Obligations.ReservedAndShortRequestsAreRefused : Prop :=
  (∀ (s : State) (sel : Byte) (ops : List Byte) (rest : List Input), s.faults = [] →
    s.inputs = .packet ⟨.host, sel :: ops⟩ :: rest → sel = 0x00 ∨ 0x0A ≤ sel →
    step s = .refused (.undecodable (.reservedSelector sel))) ∧
  (∀ (s : State) (i : Instr) (n : Nat) (rest : List Input), s.faults = [] → wellFormed i = true →
    (encode i).format = .host → n < (encode i).bytes.length →
    s.inputs = .packet ⟨.host, (encode i).bytes.take n⟩ :: rest →
    step s = .refused (.undecodable (.truncated .host)))

/-- The opcode table (R58, R59, R61, D30): every word of the width of a row's key that the row matches is read as that
row's instruction. What the table gives no bits is zero, the operands of a selector and param2 of a key, and the bytes
are laid out as log 8 says, both the model's choice. -/
def Obligations.TableWordsDecodeToTheirRows : Prop :=
  ∀ row ∈ opcodeRows, ∀ w : Nat,
    (row.format = .host → w < 0x100 → w &&& row.mask = row.value →
      ∃ i, decodeTableWord 8 w = some i ∧ mnemonic i = row.mnemonic) ∧
    (row.format = .cmdFrame → w < 0x10000 → w &&& row.mask = row.value →
      ∃ i, decodeTableWord 16 w = some i ∧ mnemonic i = row.mnemonic)

/-- Words written out from the encodings of R61, R50 and R64: each decodes to the instruction it stands for. -/
def Obligations.WordsFromTheSpecDecode : Prop :=
  decode ⟨.host, [0x01, 0x02, 0x04, 0x11]⟩ = .ok (.crc16 [0x04, 0x11], []) ∧
  decode ⟨.host, [0x02, 0x06, 0x83]⟩ = .ok (.stage 6 0x83, []) ∧
  decode ⟨.host, [0x04, 0xAA, 0x55, 0x34, 0x12, 0x03]⟩ = .ok (.sendCommand 0xAA 0x55 0x1234 3, []) ∧
  decode ⟨.host, [0x06, 0x00, 0x18, 0x00, 0x04]⟩ = .ok (.write 0x00 0x0018 4, []) ∧
  decode ⟨.cmdFrame, [0x02, 0x80, 0x10, 0x00]⟩ = .ok (.readCmd 0 .bytes32 0x0010, []) ∧
  decode ⟨.cmdFrame, [0x17, 0x81, 0x00, 0x00]⟩ = .ok (.lockDataOtp, []) ∧
  decode ⟨.event, [0x02]⟩ = .ok (.complete .dataNak [], [])

/-- R14, R22: a step runs the decoded instruction of the next input, with that input taken from the inputs (the bytes
of a packet after the instruction come next, log 8), or the next instruction in the typed form (R61); with no input
the block waits. -/
def Obligations.AStepRunsTheNextInput : Prop :=
  ∀ (s : State) (rest : List Input), s.faults = [] →
    (∀ p i, s.inputs = .packet p :: rest → decode p = .ok (i, []) → step s = exec i { s with inputs := rest }) ∧
    (∀ p i b after, s.inputs = .packet p :: rest → decode p = .ok (i, b :: after) →
      step s = exec i { s with inputs := .packet ⟨p.format, b :: after⟩ :: rest }) ∧
    (∀ i, s.inputs = .typed i :: rest → step s = exec i { s with inputs := rest }) ∧
    (s.inputs = [] → step s = .next s)

/-- Beside R62, for the model's packets of the other two formats (log 8, 9, 12): a wire command of fewer than its four
header bytes, a completion without its status code, and a code that is none of the four statuses (R64, R122) are
refused; none is a fault. -/
def Obligations.MalformedCommandsAndCompletionsAreRefused : Prop :=
  ∀ (s : State) (rest : List Input), s.faults = [] →
    (∀ bytes, bytes.length < 4 → s.inputs = .packet ⟨.cmdFrame, bytes⟩ :: rest →
      step s = .refused (.undecodable (.truncated .cmdFrame))) ∧
    (s.inputs = .packet ⟨.event, []⟩ :: rest → step s = .refused (.undecodable (.truncated .event))) ∧
    (∀ code data, 0x04 ≤ code → s.inputs = .packet ⟨.event, code :: data⟩ :: rest →
      step s = .refused (.undecodable (.reservedStatus code)))

/-- R63, R11: every encoded operand is read as an unsigned value: a byte operand as itself or as the number of its bits,
a 16-bit operand as 256 times its high byte plus its low byte; nothing is sign-extended, scaled or shifted. An encoded
index or length is at most 255, and the count of CRC16 tells how many bytes follow it. -/
def Obligations.EncodedOperandsAreUnsigned : Prop :=
  (∀ b : Byte, b.toNat = ((List.range 8).map fun k => if b.getLsbD k then 2 ^ k else 0).sum ∧ b.toNat ≤ 255) ∧
  (∀ (k : Byte) (data : List Byte), data.length = k.toNat →
    decode ⟨.host, 0x01 :: k :: data⟩ = .ok (.crc16 data, [])) ∧
  (∀ i b : Byte, decode ⟨.host, [0x02, i, b]⟩ = .ok (.stage i.toNat b, [])) ∧
  (∀ i : Byte, decode ⟨.host, [0x03, i]⟩ = .ok (.fetch i.toNat, [])) ∧
  (∀ op p1 lo hi n : Byte, ∃ p2 : Half, p2.toNat = 256 * hi.toNat + lo.toNat ∧
    decode ⟨.host, [0x04, op, p1, lo, hi, n]⟩ = .ok (.sendCommand op p1 p2 n.toNat, [])) ∧
  (∀ zone lo hi len : Byte, ∃ addr : Half, addr.toNat = 256 * hi.toNat + lo.toNat ∧
    decode ⟨.host, [0x05, zone, lo, hi, len]⟩ = .ok (.read zone addr len.toNat, []) ∧
    decode ⟨.host, [0x06, zone, lo, hi, len]⟩ = .ok (.write zone addr len.toNat, [])) ∧
  (∀ m : Byte, decode ⟨.host, [0x07, m]⟩ = .ok (.recv m.toNat, []))
end

