-- ==== Sys2Proof/Laws/Crc.lean ====
section
/-! SUPPORT. The CRC step is linear over GF(2): with start value 0 and no final XOR this is what the laws of
40_crc.md R75 rest on. -/

namespace Sys2Proof.Machine

theorem crcBit_xor (r q : Half) (d e : Bool) : crcBit (r ^^^ q) (d ^^ e) = crcBit r d ^^^ crcBit q e := by
  simp only [crcBit, Config.crcPoly, BitVec.getLsbD_xor, BitVec.shiftLeft_xor_distrib]
  cases d <;> cases e <;> cases r.getLsbD 15 <;> cases q.getLsbD 15 <;> simp <;> ac_nf <;> simp

theorem crcByte_xor (r q : Half) (b c : Byte) : crcByte (r ^^^ q) (b ^^^ c) = crcByte r b ^^^ crcByte q c := by
  simp [crcByte, crcBit_xor]

@[simp] theorem crcFrom_nil (r : Half) : crcFrom r [] = r := rfl

@[simp] theorem crcFrom_cons (r : Half) (b : Byte) (s : List Byte) :
    crcFrom r (b :: s) = crcFrom (crcByte r b) s := rfl

end Sys2Proof.Machine
end

