-- ==== Sys2Proof/Laws/Encoding.lean ====
section
/-! SUPPORT. The two bytes of a 16-bit field and their value determine each other (20_memory.md R37). -/

namespace Sys2Proof

theorem halfOf_bytes (v : Half) : halfOf (loByte v) (hiByte v) = v := by
  apply BitVec.eq_of_toNat_eq
  rw [show halfOf (loByte v) (hiByte v) = (hiByte v ++ loByte v : BitVec (8 + 8)) from rfl, BitVec.toNat_append]
  have := v.isLt
  simp only [loByte, hiByte, BitVec.extractLsb'_toNat]
  rw [← Nat.shiftLeft_add_eq_or_of_lt (by omega)]
  simp only [Nat.shiftLeft_eq, Nat.shiftRight_eq_div_pow]
  omega

theorem toNat_halfOf (lo hi : Byte) : (halfOf lo hi).toNat = hi.toNat * 256 + lo.toNat := by
  rw [show halfOf lo hi = (hi ++ lo : BitVec (8 + 8)) from rfl, BitVec.toNat_append,
    ← Nat.shiftLeft_add_eq_or_of_lt lo.isLt, Nat.shiftLeft_eq]

@[simp] theorem loByte_halfOf (lo hi : Byte) : loByte (halfOf lo hi) = lo := by
  apply BitVec.eq_of_toNat_eq
  have := hi.isLt
  have := lo.isLt
  simp only [loByte, BitVec.extractLsb'_toNat, toNat_halfOf, Nat.shiftRight_eq_div_pow]
  omega

@[simp] theorem hiByte_halfOf (lo hi : Byte) : hiByte (halfOf lo hi) = hi := by
  apply BitVec.eq_of_toNat_eq
  have := hi.isLt
  have := lo.isLt
  simp only [hiByte, BitVec.extractLsb'_toNat, toNat_halfOf, Nat.shiftRight_eq_div_pow]
  omega

/-- v[7:0] as a truncation. -/
theorem loByte_eq (v : Half) : loByte v = v.setWidth 8 := by
  apply BitVec.eq_of_getLsbD_eq
  intro i hi
  simp [loByte]

/-- v[15:8] as a shift and a truncation. -/
theorem hiByte_eq (v : Half) : hiByte v = (v >>> 8).setWidth 8 := by
  apply BitVec.eq_of_getLsbD_eq
  intro i hi
  simp [hiByte]

end Sys2Proof
end

