-- ==== Sys2Proof/Laws/Frame.lean ====
section
/-! SUPPORT. The shape of a command frame (30_encoding.md R50 to R53) and of its fields. -/

namespace Sys2Proof.Machine

@[simp] theorem length_le16 (v : Half) : (le16 v).length = 2 := by simp [le16]

@[simp] theorem length_frameHeader (w op p1 : Byte) (p2 : Half) (n : Nat) :
    (frameHeader w op p1 p2 n).length = 6 := by simp [frameHeader]

@[simp] theorem length_crcSpan (op p1 : Byte) (p2 : Half) (payload : List Byte) :
    (crcSpan op p1 p2 payload).length = payload.length + 5 := by
  simp only [crcSpan, List.length_append, List.length_cons, List.length_nil]
  omega

@[simp] theorem length_commandFrame (w op p1 : Byte) (p2 : Half) (payload : List Byte) :
    (commandFrame w op p1 p2 payload).length = payload.length + 8 := by
  simp [commandFrame]

/-- The frame is its header, its payload and its CRC bytes (R50). -/
theorem commandFrame_eq (w op p1 : Byte) (p2 : Half) (payload : List Byte) :
    commandFrame w op p1 p2 payload =
      frameHeader w op p1 p2 payload.length ++ payload ++ le16 (crc16 (crcSpan op p1 p2 payload)) := by
  simp [commandFrame, crcSpan, frameHeader]

/-- The four parts of a frame by offset: the fields of R50. -/
theorem getElem?_commandFrame (w op p1 : Byte) (p2 : Half) (payload : List Byte) (j : Nat) :
    (commandFrame w op p1 p2 payload)[j]? =
      if j < 6 then (frameHeader w op p1 p2 payload.length)[j]?
      else if j < payload.length + 6 then payload[j - 6]?
      else (le16 (crc16 (crcSpan op p1 p2 payload)))[j - (payload.length + 6)]? := by
  rw [commandFrame_eq, List.append_assoc, List.getElem?_append]
  simp only [length_frameHeader]
  by_cases h : j < 6
  · rw [if_pos h, if_pos h]
  · rw [if_neg h, if_neg h, List.getElem?_append]
    by_cases hj : j < payload.length + 6
    · rw [if_pos (by omega), if_pos hj]
    · rw [if_neg (by omega), if_neg hj, show j - 6 - payload.length = j - (payload.length + 6) by omega]

/-- The bytes the CRC covers are header bytes 1 to 5 and the payload (R52). -/
theorem getElem?_crcSpan (w op p1 : Byte) (p2 : Half) (payload : List Byte) (k : Nat) :
    (crcSpan op p1 p2 payload)[k]? =
      if k < 5 then (frameHeader w op p1 p2 payload.length)[k + 1]? else payload[k - 5]? := by
  rw [crcSpan, List.getElem?_append]
  simp [frameHeader]

end Sys2Proof.Machine
end

