-- ==== Sys2Proof/Laws/Memory.lean ====
section
/-! SUPPORT. The laws of the buffer: a read after a write, what a clear and the range operations leave in each cell,
and that every operation keeps the canonical form and the bounds. -/

namespace Sys2Proof.Machine

/-! ## One cell -/

@[simp] theorem Memory.read_nil (i : Nat) : Memory.read [] i = none := rfl

@[simp] theorem Memory.read_write_same (m : Memory) (i : Nat) (b : Byte) : (m.write i b).read i = some b := by
  induction m with
  | nil => simp [Memory.write, Memory.read]
  | cons c rest ih =>
    obtain ⟨a, v⟩ := c
    simp only [Memory.write]
    split
    · simp [Memory.read]
    · split
      · simp [Memory.read]
      · next h => simp [Memory.read, h, ih]

theorem Memory.read_write_ne (m : Memory) {i j : Nat} (b : Byte) (h : j ≠ i) : (m.write i b).read j = m.read j := by
  induction m with
  | nil => simp [Memory.write, Memory.read, Ne.symm h]
  | cons c rest ih =>
    obtain ⟨a, v⟩ := c
    simp only [Memory.write]
    split
    · simp [Memory.read, Ne.symm h]
    · split
      · next ha => subst ha; simp [Memory.read, Ne.symm h]
      · simp [Memory.read, ih]

theorem Memory.read_write (m : Memory) (i j : Nat) (b : Byte) :
    (m.write i b).read j = if j = i then some b else m.read j := by
  split
  · next h => subst h; simp
  · next h => exact m.read_write_ne b h

theorem Memory.read_clearBelow (m : Memory) (n j : Nat) :
    (m.clearBelow n).read j = if j < n then none else m.read j := by
  induction m with
  | nil => simp [Memory.clearBelow, Memory.read]
  | cons c rest ih =>
    obtain ⟨a, v⟩ := c
    unfold Memory.clearBelow at ih ⊢
    by_cases ha : n ≤ a
    · rw [List.filter_cons_of_pos (by simpa using ha)]
      simp only [Memory.read, ih]
      by_cases hj : a = j
      · subst hj; simp [ha]
      · simp [hj]
    · rw [List.filter_cons_of_neg (by simpa using ha), ih]
      simp only [Memory.read]
      by_cases hj : j < n
      · simp [hj]
      · rw [if_neg hj, if_neg hj, if_neg (show ¬ a = j by omega)]

/-! ## The canonical form and the bounds -/

/-- A property of every index is kept by a write that satisfies it. -/
theorem Memory.forall_write {P : Nat → Prop} {m : Memory} {i : Nat} {b : Byte} (h : ∀ c ∈ m, P c.1) (hi : P i) :
    ∀ c ∈ m.write i b, P c.1 := by
  induction m with
  | nil => simpa [Memory.write] using hi
  | cons c rest ih =>
    obtain ⟨a, v⟩ := c
    simp only [List.mem_cons, forall_eq_or_imp] at h
    simp only [Memory.write]
    split
    · simp only [List.mem_cons, forall_eq_or_imp]; exact ⟨hi, h⟩
    · split
      · simp only [List.mem_cons, forall_eq_or_imp]; exact ⟨hi, h.2⟩
      · simp only [List.mem_cons, forall_eq_or_imp]; exact ⟨h.1, ih h.2⟩

theorem Memory.wf_write {m : Memory} (h : m.wf) (i : Nat) (b : Byte) : (m.write i b).wf := by
  induction m with
  | nil => simp [Memory.write]
  | cons c rest ih =>
    obtain ⟨a, v⟩ := c
    obtain ⟨h1, h2⟩ := List.pairwise_cons.1 h
    simp only [Memory.write]
    split
    · next hlt =>
      refine List.pairwise_cons.2 ⟨fun c hc => ?_, h⟩
      rcases List.mem_cons.1 hc with rfl | hc
      · exact hlt
      · exact Nat.lt_trans hlt (h1 c hc)
    · split
      · next he => subst he; exact List.pairwise_cons.2 ⟨h1, h2⟩
      · next h3 h4 =>
        exact List.pairwise_cons.2 ⟨Memory.forall_write (P := fun x => a < x) h1 (by omega), ih h2⟩

theorem Memory.wf_clearBelow {m : Memory} (h : m.wf) (n : Nat) : (m.clearBelow n).wf :=
  List.Pairwise.filter _ h

theorem Memory.forall_clearBelow {P : Nat → Prop} {m : Memory} (n : Nat) (h : ∀ c ∈ m, P c.1) :
    ∀ c ∈ m.clearBelow n, P c.1 := fun c hc => h c (List.mem_of_mem_filter hc)

/-- The buffer at reset is in canonical form. -/
theorem reset_buf_wf : State.reset.buf.wf := List.Pairwise.nil

/-! ## The primitives of R36 and R13 -/

/-- Everything `BUF[i]` can do (R36). -/
theorem bufRead_eq (size : Nat) (m : Memory) (i : Nat) :
    bufRead size m i =
      if size ≤ i then .error .bufRange
      else match m.read i with
        | none => .error .unwritten
        | some b => .ok b := rfl

theorem bufRead_ok {size : Nat} {m : Memory} {i : Nat} {b : Byte} :
    bufRead size m i = .ok b ↔ i < size ∧ m.read i = some b := by
  unfold bufRead
  split
  · next h => simp; omega
  · next h =>
    have hi : i < size := by omega
    split <;> rename_i hr <;> simp [hr, hi]

theorem bufRead_unwritten {size : Nat} {m : Memory} {i : Nat} (hi : i < size) (h : m.read i = none) :
    bufRead size m i = .error .unwritten := by
  simp [bufRead, h, Nat.not_le.2 hi]

theorem bufRead_past {size : Nat} {m : Memory} {i : Nat} (hi : size ≤ i) : bufRead size m i = .error .bufRange := by
  simp [bufRead, hi]

theorem bufWrite_ok {size : Nat} {m : Memory} {i : Nat} {b : Byte} (hi : i < size) :
    bufWrite size m i b = .ok (m.write i b) := by
  simp [bufWrite, Nat.not_le.2 hi]

theorem bufWrite_past {size : Nat} {m : Memory} {i : Nat} {b : Byte} (hi : size ≤ i) :
    bufWrite size m i b = .error .bufRange := by
  simp [bufWrite, hi]

/-- When MemRead succeeds, and with which bytes. -/
theorem memRead_ok {size : Nat} {m : Memory} {i n : Nat} {bytes : List Byte} :
    memRead size m i n = .ok bytes ↔
      bytes.length = n ∧ ∀ k, k < n → i + k < size ∧ m.read (i + k) = bytes[k]? := by
  induction n generalizing i bytes with
  | zero => simp [memRead, eq_comm (a := ([] : List Byte))]
  | succ n ih =>
    constructor
    · intro h
      unfold memRead at h
      split at h
      · cases h
      · next b hb =>
        split at h
        · cases h
        · next rest hr =>
          cases h
          obtain ⟨h1, h2⟩ := ih.1 hr
          refine ⟨by simp [h1], fun k hk => ?_⟩
          cases k with
          | zero => simpa using bufRead_ok.1 hb
          | succ k =>
            have := h2 k (by omega)
            simpa [Nat.add_assoc, Nat.add_comm 1 k] using this
    · rintro ⟨h1, h2⟩
      cases bytes with
      | nil => simp at h1
      | cons b rest =>
        have hb : bufRead size m i = .ok b := bufRead_ok.2 (by simpa using h2 0 (by omega))
        have hr : memRead size m (i + 1) n = .ok rest := ih.2 ⟨by simpa using h1, fun k hk => by
          have := h2 (k + 1) (by omega)
          simpa [Nat.add_assoc, Nat.add_comm 1 k] using this⟩
        simp [memRead, hb, hr]

/-- Inside the buffer MemRead fails only on a cell that holds ⊥, and then with F_UNWRITTEN. -/
theorem memRead_inside {size : Nat} {m : Memory} {i n : Nat} (h : i + n ≤ size) :
    (∃ bytes, memRead size m i n = .ok bytes) ∨
      (memRead size m i n = .error .unwritten ∧ ∃ k, k < n ∧ m.read (i + k) = none) := by
  induction n generalizing i with
  | zero => exact .inl ⟨[], rfl⟩
  | succ n ih =>
    cases hr : m.read i with
    | none =>
      refine .inr ⟨?_, 0, by omega, by simpa using hr⟩
      simp [memRead, bufRead_unwritten (show i < size by omega) hr]
    | some b =>
      have hb : bufRead size m i = .ok b := bufRead_ok.2 ⟨by omega, hr⟩
      rcases ih (i := i + 1) (by omega) with ⟨bytes, h1⟩ | ⟨h1, k, hk, h2⟩
      · exact .inl ⟨b :: bytes, by simp [memRead, hb, h1]⟩
      · refine .inr ⟨by simp [memRead, hb, h1], k + 1, by omega, ?_⟩
        simpa [Nat.add_assoc, Nat.add_comm 1 k] using h2

/-- Everything MemWrite does inside the buffer: the bytes stand in their cells, every other cell is as before, and the
canonical form and any bound on the indices are kept. -/
theorem memWrite_inside {size : Nat} {m : Memory} {i : Nat} {bytes : List Byte} (h : i + bytes.length ≤ size) :
    ∃ m', memWrite size m i bytes = .ok m' ∧
      (∀ j, m'.read j = if i ≤ j ∧ j < i + bytes.length then bytes[j - i]? else m.read j) ∧
      (m.wf → m'.wf) ∧ ((∀ c ∈ m, c.1 < size) → ∀ c ∈ m', c.1 < size) := by
  induction bytes generalizing m i with
  | nil => exact ⟨m, rfl, fun j => by rw [if_neg (by simp)], id, id⟩
  | cons b rest ih =>
    simp only [List.length_cons] at h
    obtain ⟨m', h1, h2, h3, h4⟩ := ih (m := m.write i b) (i := i + 1) (by omega)
    refine ⟨m', by simp [memWrite, bufWrite_ok (show i < size by omega), h1], fun j => ?_,
      fun hw => h3 (Memory.wf_write hw i b),
      fun hb => h4 (Memory.forall_write (P := fun x => x < size) hb (by omega))⟩
    rw [h2, Memory.read_write, List.length_cons]
    by_cases hj : j = i
    · subst hj
      rw [if_neg (by omega), if_pos rfl, if_pos (by omega)]
      simp
    · by_cases hr : i + 1 ≤ j ∧ j < i + 1 + rest.length
      · rw [if_pos hr, if_pos (by omega), show j - i = (j - (i + 1)) + 1 by omega, List.getElem?_cons_succ]
      · rw [if_neg hr, if_neg hj, if_neg (by omega)]

/-- A MemWrite that does not fit fails with F_BUF_RANGE. -/
theorem memWrite_past {size : Nat} {m : Memory} {i : Nat} {bytes : List Byte} (hb : bytes ≠ [])
    (h : size < i + bytes.length) : memWrite size m i bytes = .error .bufRange := by
  induction bytes generalizing m i with
  | nil => exact absurd rfl hb
  | cons b rest ih =>
    unfold memWrite
    by_cases hi : size ≤ i
    · simp [bufWrite_past hi]
    · have hr : rest ≠ [] := by
        rintro rfl
        simp only [List.length_cons, List.length_nil] at h
        omega
      simp only [bufWrite_ok (show i < size by omega)]
      refine ih hr ?_
      simp only [List.length_cons] at h
      omega

end Sys2Proof.Machine
end

