-- ==== Sys2Proof/Laws/State.lean ====
section
/-! SUPPORT. One lemma per field for each update of the state, true by unfolding the update once; and the plain facts
of `busy`. -/

namespace Sys2Proof.Machine

variable (s : State)

@[simp] theorem addReply_params (v : Reply) : (addReply v s).params = s.params := rfl
@[simp] theorem addReply_crcReg (v : Reply) : (addReply v s).crcReg = s.crcReg := rfl
@[simp] theorem addReply_buf (v : Reply) : (addReply v s).buf = s.buf := rfl
@[simp] theorem addReply_xfer (v : Reply) : (addReply v s).xfer = s.xfer := rfl
@[simp] theorem addReply_lastStatus (v : Reply) : (addReply v s).lastStatus = s.lastStatus := rfl
@[simp] theorem addReply_faults (v : Reply) : (addReply v s).faults = s.faults := rfl
@[simp] theorem addReply_hist (v : Reply) : (addReply v s).hist = s.hist := rfl
@[simp] theorem addReply_inputs (v : Reply) : (addReply v s).inputs = s.inputs := rfl
@[simp] theorem addReply_replies (v : Reply) : (addReply v s).replies = s.replies ++ [v] := rfl
@[simp] theorem addReply_choices (v : Reply) : (addReply v s).choices = s.choices := rfl

@[simp] theorem record_params (r : Transfer) : (record r s).params = s.params := rfl
@[simp] theorem record_crcReg (r : Transfer) : (record r s).crcReg = s.crcReg := rfl
@[simp] theorem record_buf (r : Transfer) : (record r s).buf = s.buf := rfl
@[simp] theorem record_xfer (r : Transfer) : (record r s).xfer = s.xfer := rfl
@[simp] theorem record_lastStatus (r : Transfer) : (record r s).lastStatus = s.lastStatus := rfl
@[simp] theorem record_faults (r : Transfer) : (record r s).faults = s.faults := rfl
@[simp] theorem record_hist (r : Transfer) : (record r s).hist = s.hist ++ [r] := rfl
@[simp] theorem record_inputs (r : Transfer) : (record r s).inputs = s.inputs := rfl
@[simp] theorem record_replies (r : Transfer) : (record r s).replies = s.replies := rfl
@[simp] theorem record_choices (r : Transfer) : (record r s).choices = s.choices := rfl

@[simp] theorem issueWrite_params (frame : List Byte) : (issueWrite frame s).params = s.params := rfl
@[simp] theorem issueWrite_crcReg (frame : List Byte) : (issueWrite frame s).crcReg = s.crcReg := rfl
@[simp] theorem issueWrite_buf (frame : List Byte) : (issueWrite frame s).buf = s.buf := rfl
@[simp] theorem issueWrite_xfer (frame : List Byte) : (issueWrite frame s).xfer = .write frame.length := rfl
@[simp] theorem issueWrite_lastStatus (frame : List Byte) : (issueWrite frame s).lastStatus = s.lastStatus := rfl
@[simp] theorem issueWrite_faults (frame : List Byte) : (issueWrite frame s).faults = s.faults := rfl
@[simp] theorem issueWrite_hist (frame : List Byte) : (issueWrite frame s).hist = s.hist ++ [.w frame] := rfl
@[simp] theorem issueWrite_inputs (frame : List Byte) : (issueWrite frame s).inputs = s.inputs := rfl
@[simp] theorem issueWrite_replies (frame : List Byte) : (issueWrite frame s).replies = s.replies := rfl
@[simp] theorem issueWrite_choices (frame : List Byte) : (issueWrite frame s).choices = s.choices := rfl

@[simp] theorem issueRead_params (m : Nat) : (issueRead m s).params = s.params := rfl
@[simp] theorem issueRead_crcReg (m : Nat) : (issueRead m s).crcReg = s.crcReg := rfl
@[simp] theorem issueRead_buf (m : Nat) : (issueRead m s).buf = s.buf := rfl
@[simp] theorem issueRead_xfer (m : Nat) : (issueRead m s).xfer = .read m := rfl
@[simp] theorem issueRead_lastStatus (m : Nat) : (issueRead m s).lastStatus = s.lastStatus := rfl
@[simp] theorem issueRead_faults (m : Nat) : (issueRead m s).faults = s.faults := rfl
@[simp] theorem issueRead_hist (m : Nat) : (issueRead m s).hist = s.hist ++ [.r m] := rfl
@[simp] theorem issueRead_inputs (m : Nat) : (issueRead m s).inputs = s.inputs := rfl
@[simp] theorem issueRead_replies (m : Nat) : (issueRead m s).replies = s.replies := rfl
@[simp] theorem issueRead_choices (m : Nat) : (issueRead m s).choices = s.choices := rfl

@[simp] theorem busy_eq_false {s : State} : busy s = false ↔ s.xfer = .idle := by
  simp [busy]

@[simp] theorem busy_eq_true {s : State} : busy s = true ↔ s.xfer ≠ .idle := by
  simp [busy]

end Sys2Proof.Machine
end

