-- ==== Sys2Proof/Laws/Ops.lean ====
section
/-! SUPPORT. What each shared operation can do, once: the guards `live`, `whenFree` and `whenSized`, and the framing of
a command, which has exactly four outcomes (sendFrame_cases). -/

namespace Sys2Proof.Machine

/-! ## The record of a completion -/

@[simp] theorem completionRecord_ok (d : List Byte) : completionRecord .ok d = .c .ok d := rfl

@[simp] theorem completionRecord_nil (st : Status) : completionRecord st [] = .c st [] := by cases st <;> rfl

/-- A completion other than OK is on record without bytes (R29). -/
theorem completionRecord_of_failed {st : Status} (h : st ≠ .ok) (d : List Byte) : completionRecord st d = .c st [] := by
  cases st <;> first | rfl | exact absurd rfl h

/-! ## The guards -/

theorem live_of_nil {s : State} (h : s.faults = []) (k : StepOutcome) : live s k = k := by
  simp [live, h]

theorem live_eq_next {s t : State} {k : StepOutcome} : live s k = .next t ↔ s.faults = [] ∧ k = .next t := by
  unfold live
  split <;> simp_all

theorem live_eq_refused {s : State} {k : StepOutcome} {r : Refusal} :
    live s k = .refused r ↔ s.faults = [] ∧ k = .refused r := by
  unfold live
  split <;> simp_all

theorem live_of_cons {s : State} {f : FaultCode} {req : Instr} {rest : List (FaultCode × Instr)}
    (h : s.faults = (f, req) :: rest) (k : StepOutcome) : live s k = .fault (.halted f req) := by
  simp [live, h]

theorem whenFree_of_idle {s : State} (h : s.xfer = .idle) (k : StepOutcome) : whenFree s k = k := by
  simp [whenFree, busy, h]

theorem whenFree_of_busy {s : State} (h : s.xfer ≠ .idle) (k : StepOutcome) : whenFree s k = answer .busy s := by
  simp [whenFree, busy, h]

@[simp] theorem orRaise_ok {α : Type} (req : Instr) (s : State) (v : α) (k : α → StepOutcome) :
    orRaise req s (.ok v) k = k v := rfl

@[simp] theorem orRaise_error {α : Type} (req : Instr) (s : State) (f : FaultCode) (k : α → StepOutcome) :
    orRaise req s (.error f) k = raise f req s := rfl

/-- On a live state FAULTS becomes the one pair raised. -/
theorem raise_of_nil {f : FaultCode} {req : Instr} {s : State} (h : s.faults = []) :
    raise f req s = .next { s with faults := [(f, req)] } := by
  simp [raise, h]

theorem whenSized_of_good {len : Nat} (h : len = 4 ∨ len = 32) (s : State) (k : StepOutcome) :
    whenSized len s k = k := by
  simp [whenSized, goodLength, h]

theorem whenSized_of_bad_idle {len : Nat} (h4 : len ≠ 4) (h32 : len ≠ 32) {s : State} (h : s.xfer = .idle)
    (k : StepOutcome) : whenSized len s k = answer .sizeError s := by
  simp [whenSized, goodLength, h4, h32, busy, h]

theorem whenSized_of_bad_busy {len : Nat} (h4 : len ≠ 4) (h32 : len ≠ 32) {s : State} (h : s.xfer ≠ .idle)
    (k : StepOutcome) : whenSized len s k =
      answer (if Config.sizeErrorFirst s.choices then .sizeError else .busy) { s with choices := s.choices + 1 } := by
  simp [whenSized, goodLength, h4, h32, busy, h]

/-! ## Framing a command -/

theorem sendFrame_busy {s : State} (h : s.xfer ≠ .idle) (req : Instr) (op p1 : Byte) (p2 : Half) (n : Nat) :
    sendFrame req op p1 p2 n s = answer .busy s := by
  rw [sendFrame, whenFree_of_busy h]

theorem sendFrame_frameRange {s : State} (h : s.xfer = .idle) {n : Nat} (hn : ¬ s.Fits n) (req : Instr)
    (op p1 : Byte) (p2 : Half) : sendFrame req op p1 p2 n s = raise .frameRange req s := by
  rw [sendFrame, whenFree_of_idle h, if_pos]
  simp only [State.Fits, Config.maxPayload, Config.frameOverhead] at hn ⊢
  omega

theorem sendFrame_unwritten {s : State} (h : s.xfer = .idle) {n : Nat} (hn : s.Fits n)
    (hk : ∃ k, k < n ∧ s.buf.read (6 + k) = none) (req : Instr) (op p1 : Byte) (p2 : Half) :
    sendFrame req op p1 p2 n s = raise .unwritten req s := by
  obtain ⟨k, hk, hr⟩ := hk
  rw [sendFrame, whenFree_of_idle h, if_neg (by simp only [State.Fits, Config.maxPayload, Config.frameOverhead] at hn ⊢; omega)]
  rcases memRead_inside (size := s.params.bufSize) (m := s.buf) (i := Config.payloadStart) (n := n)
    (by simp only [State.Fits, Config.payloadStart] at hn ⊢; omega) with ⟨bytes, hb⟩ | ⟨he, _⟩
  · obtain ⟨h1, h2⟩ := memRead_ok.1 hb
    have := (h2 k hk).2
    rw [show Config.payloadStart + k = 6 + k from rfl, hr, List.getElem?_eq_getElem (by omega)] at this
    cases this
  · rw [he, orRaise_error]

/-- A staged payload that fits is framed and sent; the buffer keeps its canonical form and its bounds, and the frame
reads back from cell 0. -/
theorem sendFrame_sent {s : State} (h : s.xfer = .idle) {payload : List Byte} (hn : s.Fits payload.length)
    (hp : s.Staged payload) (req : Instr) (op p1 : Byte) (p2 : Half) :
    ∃ t, sendFrame req op p1 p2 payload.length s = .next t ∧ Sent s op p1 p2 payload t ∧
      memRead s.params.bufSize t.buf 0 (payload.length + 8) = .ok (commandFrame s.params.wordAddr op p1 p2 payload) ∧
      (s.buf.wf → t.buf.wf) ∧
      ((∀ c ∈ s.buf, c.1 < s.params.bufSize) → ∀ c ∈ t.buf, c.1 < s.params.bufSize) := by
  obtain ⟨hn1, hn2⟩ := hn
  have hread : memRead s.params.bufSize s.buf Config.payloadStart payload.length = .ok payload :=
    memRead_ok.2 ⟨rfl, fun k hk => ⟨by simp only [Config.payloadStart]; omega, hp k hk⟩⟩
  obtain ⟨b1, hb1, r1, w1, i1⟩ := memWrite_inside (size := s.params.bufSize) (m := s.buf) (i := 0)
    (bytes := frameHeader s.params.wordAddr op p1 p2 payload.length) (by simp; omega)
  have hspan : memRead s.params.bufSize b1 1 (payload.length + 5) = .ok (crcSpan op p1 p2 payload) := by
    refine memRead_ok.2 ⟨by simp, fun k hk => ⟨by omega, ?_⟩⟩
    rw [r1, getElem?_crcSpan s.params.wordAddr]
    simp only [length_frameHeader, Nat.zero_le, true_and, Nat.zero_add, Nat.sub_zero]
    by_cases h5 : k < 5
    · rw [if_pos (by omega), if_pos h5, Nat.add_comm]
    · rw [if_neg (by omega), if_neg h5, show 1 + k = 6 + (k - 5) by omega]
      exact hp _ (by omega)
  obtain ⟨b2, hb2, r2, w2, i2⟩ := memWrite_inside (size := s.params.bufSize) (m := b1)
    (i := Config.payloadStart + payload.length) (bytes := le16 (crc16 (crcSpan op p1 p2 payload)))
    (by simp only [Config.payloadStart, length_le16]; omega)
  have hcell : ∀ j, b2.read j =
      if j < payload.length + 8 then (commandFrame s.params.wordAddr op p1 p2 payload)[j]? else s.buf.read j := by
    intro j
    rw [r2, r1, getElem?_commandFrame]
    simp only [length_frameHeader, length_le16, Config.payloadStart, Nat.zero_le, true_and, Nat.zero_add, Nat.sub_zero]
    by_cases h6 : j < 6
    · rw [if_neg (by omega), if_pos h6, if_pos (by omega), if_pos h6]
    · by_cases hj : j < payload.length + 6
      · rw [if_neg (by omega), if_neg h6, if_pos (by omega), if_neg h6, if_pos hj]
        have := hp (j - 6) (by omega)
        rwa [show 6 + (j - 6) = j by omega] at this
      · by_cases h8 : j < payload.length + 8
        · rw [if_pos (by omega), if_pos h8, if_neg h6, if_neg hj, Nat.add_comm 6]
        · rw [if_neg (by omega), if_neg h6, if_neg h8]
  have hframe : memRead s.params.bufSize b2 0 (payload.length + 8) =
      .ok (commandFrame s.params.wordAddr op p1 p2 payload) := by
    refine memRead_ok.2 ⟨by simp, fun k hk => ⟨by omega, ?_⟩⟩
    rw [Nat.zero_add, hcell, if_pos hk]
  refine ⟨addReply (.result .ok) (issueWrite (commandFrame s.params.wordAddr op p1 p2 payload)
    { s with buf := b2, crcReg := crc16 (crcSpan op p1 p2 payload) }), ?_, ⟨hcell, ?_⟩, hframe,
    fun hw => w2 (w1 hw), fun hi => i2 (i1 hi)⟩
  · rw [sendFrame, whenFree_of_idle h,
      if_neg (by simp only [Config.maxPayload, Config.frameOverhead]; omega),
      hread, orRaise_ok, hb1, orRaise_ok, hspan, orRaise_ok, hb2, orRaise_ok,
      show payload.length + Config.frameOverhead = payload.length + 8 from rfl, hframe, orRaise_ok]
    rfl
  · simp [addReply, issueWrite, record]

/-- The four outcomes of framing a command, by what the state holds. -/
theorem sendFrame_cases (req : Instr) (op p1 : Byte) (p2 : Half) (n : Nat) (s : State) :
    (s.xfer ≠ .idle ∧ sendFrame req op p1 p2 n s = answer .busy s) ∨
    (s.xfer = .idle ∧ ¬ s.Fits n ∧ sendFrame req op p1 p2 n s = raise .frameRange req s) ∨
    (s.xfer = .idle ∧ s.Fits n ∧ (∃ k, k < n ∧ s.buf.read (6 + k) = none) ∧
      sendFrame req op p1 p2 n s = raise .unwritten req s) ∨
    (s.xfer = .idle ∧ s.Fits n ∧ ∃ payload t, payload.length = n ∧ s.Staged payload ∧
      sendFrame req op p1 p2 n s = .next t ∧ Sent s op p1 p2 payload t ∧
      memRead s.params.bufSize t.buf 0 (n + 8) = .ok (commandFrame s.params.wordAddr op p1 p2 payload) ∧
      (s.buf.wf → t.buf.wf) ∧
      ((∀ c ∈ s.buf, c.1 < s.params.bufSize) → ∀ c ∈ t.buf, c.1 < s.params.bufSize)) := by
  by_cases h : s.xfer = .idle
  · by_cases hn : s.Fits n
    · rcases memRead_inside (size := s.params.bufSize) (m := s.buf) (i := 6) (n := n)
        (by simp only [State.Fits] at hn; omega) with ⟨payload, hb⟩ | ⟨_, hk⟩
      · obtain ⟨rfl, h2⟩ := memRead_ok.1 hb
        obtain ⟨t, ht⟩ := sendFrame_sent h hn (fun k hk => (h2 k hk).2) req op p1 p2
        exact .inr (.inr (.inr ⟨h, hn, payload, t, rfl, fun k hk => (h2 k hk).2, ht⟩))
      · exact .inr (.inr (.inl ⟨h, hn, hk, sendFrame_unwritten h hn hk req op p1 p2⟩))
    · exact .inr (.inl ⟨h, hn, sendFrame_frameRange h hn req op p1 p2⟩)
  · exact .inl ⟨h, sendFrame_busy h req op p1 p2 n⟩

end Sys2Proof.Machine
end

