-- ==== Sys2Proof/Laws/Exec.lean ====
section
/-! SUPPORT. Everything one instruction can do, said once: `Effect i s t` lists the ways `exec i s` answers a next state
t (exec_effect), and exec_framing says which command each framing instruction asks for. -/

namespace Sys2Proof.Machine

/-- The ways an instruction answers a next state. -/
inductive Effect : Instr → State → State → Prop
  /-- A model fault is raised: its pair joins FAULTS, nothing else changes (R124). -/
  | raised {i s} (f : FaultCode) (cause : FaultCause f i s ∨ (f = .frameRange ∧ ¬ s.Fits ((payloadLength i).getD 0)
        ∧ s.xfer = .idle ∧ framesCommand i = true) ∨
        (f = .bufRange ∧ ∃ m st d, s.xfer = .read m ∧ i = .complete st d ∧ s.params.bufSize < m)) :
      Effect i s { s with faults := [(f, requestOf i)] }
  /-- A buffer request is answered BUSY (R87). -/
  | busy {i s} (uses : usesBuffer i = true) (loan : s.xfer ≠ .idle) : Effect i s (addReply (.result .busy) s)
  /-- A bad length is answered SIZE_ERROR (R88). -/
  | sizeError {i s} (bad : sizeAccepted i = false) (idle : s.xfer = .idle) : Effect i s (addReply (.result .sizeError) s)
  /-- A bad length on a busy block: the run chooses (R89). -/
  | chosen {i s} (v : Result) (hv : v = .sizeError ∨ v = .busy) (bad : sizeAccepted i = false) (loan : s.xfer ≠ .idle) :
      Effect i s (addReply (.result v) { s with choices := s.choices + 1 })
  /-- CRC16 (R73). -/
  | crc {s} (data : List Byte) :
      Effect (.crc16 data) s (addReply (.result (.okCrc (crc16 data))) { s with crcReg := crc16 data })
  /-- STAGE (R80). -/
  | staged {s} (idx : Nat) (b : Byte) (idle : s.xfer = .idle) (inside : idx < s.params.bufSize) :
      Effect (.stage idx b) s (addReply (.result .ok) { s with buf := s.buf.write idx b })
  /-- FETCH (R81). -/
  | fetched {s} (idx : Nat) (b : Byte) (idle : s.xfer = .idle) (inside : idx < s.params.bufSize)
      (cell : s.buf.read idx = some b) : Effect (.fetch idx) s (addReply (.result (.okByte b)) s)
  /-- A command is framed and sent (R82). -/
  | sent {i s t} (op p1 : Byte) (p2 : Half) (payload : List Byte) (frames : framesCommand i = true)
      (len : payloadLength i = some payload.length) (accepted : sizeAccepted i = true) (idle : s.xfer = .idle)
      (fits : s.Fits payload.length) (staged : s.Staged payload) (what : Sent s op p1 p2 payload t)
      (back : memRead s.params.bufSize t.buf 0 (payload.length + 8) =
        .ok (commandFrame s.params.wordAddr op p1 p2 payload))
      (wf : s.buf.wf → t.buf.wf)
      (inBuffer : (∀ c ∈ s.buf, c.1 < s.params.bufSize) → ∀ c ∈ t.buf, c.1 < s.params.bufSize) : Effect i s t
  /-- RECV (R86). -/
  | received {s} (m : Nat) (idle : s.xfer = .idle) (lo : 1 ≤ m) (hi : m ≤ s.params.bufSize) :
      Effect (.recv m) s (addReply (.result .ok) (issueRead m s))
  /-- STATUS (R95). -/
  | status {s} : Effect .status s (addReply (.result (.okStatus s.lastStatus (Machine.busy s))) s)
  /-- RESET (R140). -/
  | reset {s} (idle : s.xfer = .idle) :
      Effect .reset s
        (addReply (.result .ok) { s with crcReg := 0x0000, buf := [], xfer := .idle, lastStatus := .none })
  /-- A write transfer completes (R126). -/
  | writeDone {s} (len : Nat) (st : Status) (inFlight : s.xfer = .write len) :
      Effect (.complete st []) s
        (addReply (.notify .write st) (record (.c st []) { s with lastStatus := .of st, xfer := .idle }))
  /-- A read transfer completes with OK (R126). -/
  | readDone {s} (m : Nat) (data : List Byte) (b : Memory) (inFlight : s.xfer = .read m) (len : data.length = m)
      (write : memWrite s.params.bufSize s.buf 0 data = .ok b) :
      Effect (.complete .ok data) s
        (addReply (.notify .read .ok) (record (.c .ok data) { s with buf := b, lastStatus := .of .ok, xfer := .idle }))
  /-- A read transfer completes with another status (R126). -/
  | readFailed {s} (m : Nat) (st : Status) (data : List Byte) (inFlight : s.xfer = .read m) (bad : st ≠ .ok) :
      Effect (.complete st data) s
        (addReply (.notify .read st)
          (record (.c st []) { s with buf := s.buf.clearBelow m, lastStatus := .of st, xfer := .idle }))

/-- Which command a framing instruction asks for, once its length is accepted (R67, R82, R84, R85, R100 to R106). -/
theorem exec_framing {i : Instr} (h : framesCommand i = true) (hz : sizeAccepted i = true) :
    ∃ op p1 p2 n, payloadLength i = some n ∧ usesBuffer i = true ∧
      ∀ s, exec i s = live s (sendFrame (requestOf i) op p1 p2 n s) := by
  cases i with
  | sendCommand op p1 p2 n => exact ⟨op, p1, p2, n, rfl, rfl, fun _ => rfl⟩
  | read zone addr len =>
    have hz : len = 4 ∨ len = 32 := by simpa [sizeAccepted] using hz
    exact ⟨_, _, addr, 0, rfl, rfl, fun s => by simp only [exec, execRead, readRequest, whenSized_of_good hz]; rfl⟩
  | write zone addr len =>
    have hz : len = 4 ∨ len = 32 := by simpa [sizeAccepted] using hz
    exact ⟨_, _, addr, len, rfl, rfl, fun s => by simp only [exec, execWrite, writeRequest, whenSized_of_good hz]; rfl⟩
  | readCmd zone size addr =>
    have hz : accessLength size = 4 ∨ accessLength size = 32 := by cases size <;> simp [accessLength]
    exact ⟨_, _, addr, 0, rfl, rfl, fun s => by simp only [exec, execReadCmd, readRequest, whenSized_of_good hz]; rfl⟩
  | writeCmd zone size addr =>
    have hz : accessLength size = 4 ∨ accessLength size = 32 := by cases size <;> simp [accessLength]
    exact ⟨_, _, addr, accessLength size, rfl, rfl,
      fun s => by simp only [exec, execWriteCmd, writeRequest, whenSized_of_good hz]; rfl⟩
  | lockConfig => exact ⟨_, _, _, 0, rfl, rfl, fun _ => rfl⟩
  | lockDataOtp => exact ⟨_, _, _, 0, rfl, rfl, fun _ => rfl⟩
  | lockSlot0 => exact ⟨_, _, _, 0, rfl, rfl, fun _ => rfl⟩
  | genkeyNew slot => exact ⟨_, _, _, 0, rfl, rfl, fun _ => rfl⟩
  | random => exact ⟨_, _, _, 0, rfl, rfl, fun _ => rfl⟩
  | _ => simp [framesCommand] at h

/-- A READ or WRITE of a length other than 4 and 32. -/
theorem exec_badSize {i : Instr} (hz : sizeAccepted i = false) (s : State) :
    exec i s = live s (if s.xfer = .idle then answer .sizeError s
      else answer (if Config.sizeErrorFirst s.choices then .sizeError else .busy) { s with choices := s.choices + 1 }) := by
  cases i with
  | read zone addr len =>
    simp [sizeAccepted] at hz
    simp only [exec, execRead, readRequest]
    split
    · next h => rw [whenSized_of_bad_idle hz.1 hz.2 h]
    · next h => rw [whenSized_of_bad_busy hz.1 hz.2 h]
  | write zone addr len =>
    simp [sizeAccepted] at hz
    simp only [exec, execWrite, writeRequest]
    split
    · next h => rw [whenSized_of_bad_idle hz.1 hz.2 h]
    · next h => rw [whenSized_of_bad_busy hz.1 hz.2 h]
  | _ => simp [sizeAccepted] at hz

theorem framing_effect {i : Instr} {s t : State} (hf : framesCommand i = true) (hl : s.faults = [])
    (h : exec i s = .next t) : Effect i s t := by
  cases hz : sizeAccepted i with
  | false =>
    rw [exec_badSize hz, live_of_nil hl] at h
    split at h
    · next hi => cases h; exact .sizeError hz hi
    · next hi =>
      cases h
      refine .chosen _ ?_ hz hi
      split <;> simp
  | true =>
    obtain ⟨op, p1, p2, n, hn, hu, he⟩ := exec_framing hf hz
    rw [he, live_of_nil hl] at h
    rcases sendFrame_cases (requestOf i) op p1 p2 n s with ⟨hb, e⟩ | ⟨hi, hr, e⟩ | ⟨hi, hr, hk, e⟩ |
      ⟨hi, hr, payload, t', rfl, hst, e, hs, hback, hw, hin⟩ <;> rw [e] at h
    · cases h; exact .busy hu hb
    · rw [raise_of_nil hl] at h
      cases h
      exact .raised _ (.inr (.inl ⟨rfl, by simpa [hn] using hr, hi, hf⟩))
    · rw [raise_of_nil hl] at h
      cases h
      exact .raised _ (.inl ⟨hi, .inr ⟨n, hn, hz, hr, hk⟩⟩)
    · cases h
      exact .sent op p1 p2 payload hf hn hz hi hr hst hs hback hw hin

/-- Every next state of an instruction is one of the effects, and no fault stood before it (R125). -/
theorem exec_effect {i : Instr} {s t : State} (h : exec i s = .next t) : s.faults = [] ∧ Effect i s t := by
  have hl : s.faults = [] := by
    cases i <;> exact (live_eq_next.1 h).1
  refine ⟨hl, ?_⟩
  cases hf : framesCommand i with
  | true => exact framing_effect hf hl h
  | false =>
    cases i with
    | crc16 data =>
      rw [exec, execCrc16, live_of_nil hl] at h
      cases h; exact .crc data
    | stage idx b =>
      rw [exec, execStage, live_of_nil hl] at h
      by_cases hi : s.xfer = .idle
      · rw [whenFree_of_idle hi] at h
        by_cases hr : idx < s.params.bufSize
        · rw [bufWrite_ok hr] at h
          cases h; exact .staged idx b hi hr
        · rw [bufWrite_past (by omega), orRaise_error, raise_of_nil hl] at h
          cases h; exact .raised _ (.inl ⟨hi, idx, by omega, .inr ⟨b, rfl⟩⟩)
      · rw [whenFree_of_busy hi] at h
        cases h; exact .busy rfl hi
    | fetch idx =>
      rw [exec, execFetch, live_of_nil hl] at h
      by_cases hi : s.xfer = .idle
      · rw [whenFree_of_idle hi] at h
        by_cases hr : idx < s.params.bufSize
        · cases hc : s.buf.read idx with
          | none =>
            rw [bufRead_unwritten hr hc, orRaise_error, raise_of_nil hl] at h
            cases h; exact .raised _ (.inl ⟨hi, .inl ⟨idx, hr, rfl, hc⟩⟩)
          | some b =>
            rw [bufRead_ok.2 ⟨hr, hc⟩] at h
            cases h; exact .fetched idx b hi hr hc
        · rw [bufRead_past (by omega), orRaise_error, raise_of_nil hl] at h
          cases h; exact .raised _ (.inl ⟨hi, idx, by omega, .inl rfl⟩)
      · rw [whenFree_of_busy hi] at h
        cases h; exact .busy rfl hi
    | recv m =>
      rw [exec, execRecv, live_of_nil hl] at h
      by_cases hi : s.xfer = .idle
      · rw [whenFree_of_idle hi] at h
        split at h
        · next hm =>
          rw [raise_of_nil hl] at h
          cases h; exact .raised _ (.inl ⟨hi, m, rfl, by omega⟩)
        · cases h; exact .received m hi (by omega) (by omega)
      · rw [whenFree_of_busy hi] at h
        cases h; exact .busy rfl hi
    | status =>
      rw [exec, execStatus, live_of_nil hl] at h
      cases h; exact .status
    | reset =>
      rw [exec, execReset, live_of_nil hl] at h
      split at h
      · cases h
      · next hb => cases h; exact .reset (by simpa using hb)
    | complete st data =>
      rw [exec, execComplete, live_of_nil hl] at h
      split at h
      · next hx =>
        rw [raise_of_nil hl] at h
        cases h; exact .raised _ (.inl ⟨hx, st, data, rfl⟩)
      · next len hx =>
        unfold completeWrite at h
        split at h
        · next hd =>
          rw [raise_of_nil hl] at h
          cases h; exact .raised _ (.inl ⟨st, data, rfl, .inl ⟨len, hx, hd⟩⟩)
        · next hd =>
          rw [Classical.not_not] at hd
          subst hd
          rw [finishTransfer, completionRecord_nil] at h
          cases h; exact .writeDone len st hx
      · next m hx =>
        unfold completeRead at h
        split at h
        · next hs =>
          subst hs
          split at h
          · next hd =>
            rw [raise_of_nil hl] at h
            cases h; exact .raised _ (.inl ⟨.ok, data, rfl, .inr ⟨m, hx, rfl, hd⟩⟩)
          · next hd =>
            by_cases hr : m ≤ s.params.bufSize
            · obtain ⟨b, hb, _⟩ := memWrite_inside (size := s.params.bufSize) (m := s.buf) (i := 0) (bytes := data) (by omega)
              rw [hb] at h
              cases h; exact .readDone m data b hx (by omega) hb
            · rw [memWrite_past (by rintro rfl; simp at hd; omega) (by omega), orRaise_error, raise_of_nil hl] at h
              cases h
              exact .raised _ (.inr (.inr ⟨rfl, m, .ok, data, hx, rfl, by omega⟩))
        · next hs =>
          rw [finishTransfer, completionRecord_of_failed hs] at h
          cases h; exact .readFailed m st data hx hs
    | _ => simp [framesCommand] at hf

/-! ## COMPLETE by what is in flight -/

theorem execComplete_of_idle {s : State} (h : s.faults = []) (hx : s.xfer = .idle) (st : Status) (data : List Byte) :
    execComplete st data s = raise .spuriousCompletion (.complete st data) s := by
  rw [execComplete, live_of_nil h]
  split <;> simp_all

theorem execComplete_of_write {s : State} {len : Nat} (h : s.faults = []) (hx : s.xfer = .write len) (st : Status)
    (data : List Byte) : execComplete st data s = completeWrite (.complete st data) st data s := by
  rw [execComplete, live_of_nil h]
  split <;> simp_all

theorem execComplete_of_read {s : State} {m : Nat} (h : s.faults = []) (hx : s.xfer = .read m) (st : Status)
    (data : List Byte) : execComplete st data s = completeRead (.complete st data) m st data s := by
  rw [execComplete, live_of_nil h]
  split <;> simp_all

/-- On a faulted state no instruction takes a step (R125). -/
theorem exec_of_faulted {s : State} {f : FaultCode} {req : Instr} {rest : List (FaultCode × Instr)}
    (h : s.faults = (f, req) :: rest) (i : Instr) : exec i s = .fault (.halted f req) := by
  cases i <;> exact live_of_cons h _

/-- A refusal of an instruction is that of RESET on a busy block (R141). -/
theorem exec_refused {i : Instr} {s : State} {r : Refusal} (h : exec i s = .refused r) :
    i = .reset ∧ s.faults = [] ∧ s.xfer ≠ .idle ∧ r = .resetWhileBusy := by
  have hl : s.faults = [] := by
    cases i <;> exact (live_eq_refused.1 h).1
  cases hf : framesCommand i with
  | true =>
    cases hz : sizeAccepted i with
    | false =>
      rw [exec_badSize hz, live_of_nil hl] at h
      split at h <;> cases h
    | true =>
      obtain ⟨op, p1, p2, n, _, _, he⟩ := exec_framing hf hz
      rw [he, live_of_nil hl] at h
      rcases sendFrame_cases (requestOf i) op p1 p2 n s with ⟨_, e⟩ | ⟨_, _, e⟩ | ⟨_, _, _, e⟩ |
        ⟨_, _, _, _, _, _, e, _⟩ <;> rw [e] at h <;> cases h
  | false =>
    cases i with
    | reset =>
      rw [exec, execReset, live_of_nil hl] at h
      split at h
      · next hb => cases h; exact ⟨rfl, hl, by simpa using hb, rfl⟩
      · cases h
    | crc16 data => rw [exec, execCrc16, live_of_nil hl] at h; cases h
    | status => rw [exec, execStatus, live_of_nil hl] at h; cases h
    | stage idx b =>
      rw [exec, execStage, live_of_nil hl, whenFree] at h
      split at h
      · cases h
      · unfold orRaise at h
        split at h <;> cases h
    | fetch idx =>
      rw [exec, execFetch, live_of_nil hl, whenFree] at h
      split at h
      · cases h
      · unfold orRaise at h
        split at h <;> cases h
    | recv m =>
      rw [exec, execRecv, live_of_nil hl, whenFree] at h
      split at h
      · cases h
      · split at h <;> cases h
    | complete st data =>
      rw [exec, execComplete, live_of_nil hl] at h
      unfold completeWrite completeRead orRaise at h
      repeat' split at h
      all_goals cases h
    | _ => simp [framesCommand] at hf

/-! ## Runs of instructions -/

@[simp] theorem execAll_nil (s : State) : execAll [] s = .next s := rfl

theorem execAll_cons {i : Instr} {s t : State} (h : exec i s = .next t) (rest : List Instr) :
    execAll (i :: rest) s = execAll rest t := by
  rw [execAll, h]

/-- STAGE of a cell inside the buffer on a free block, as one state update (R80). -/
theorem exec_stage_of_free {s : State} (h : s.Free) {idx : Nat} (hi : idx < s.params.bufSize) (b : Byte) :
    exec (.stage idx b) s = .next (addReply (.result .ok) { s with buf := s.buf.write idx b }) := by
  rw [exec, execStage, live_of_nil h.1, whenFree_of_idle h.2, bufWrite_ok hi, orRaise_ok, answer]

/-- STAGE requests that raise no fault, on a free block, leave it free with its parameters, and every cell none of them
names as it was (R80). -/
theorem execAll_stages_frame {u : State} (stages : List (Nat × Byte)) {s : State} (h : s.Free)
    (he : execAll (stages.map fun p => .stage p.1 p.2) s = .next u) (hu : u.faults = []) :
    u.Free ∧ u.params = s.params ∧ ∀ j, (∀ p ∈ stages, p.1 ≠ j) → u.buf.read j = s.buf.read j := by
  induction stages generalizing s with
  | nil => cases he; exact ⟨h, rfl, fun _ _ => rfl⟩
  | cons p rest ih =>
    by_cases hi : p.1 < s.params.bufSize
    · rw [List.map_cons, execAll_cons (exec_stage_of_free h hi p.2)] at he
      obtain ⟨hf, hp, hr⟩ := ih (s := addReply (.result .ok) { s with buf := s.buf.write p.1 p.2 }) h he
      refine ⟨hf, hp, fun j hj => ?_⟩
      rw [hr j fun q hq => hj q (List.mem_cons_of_mem _ hq), addReply_buf,
        Memory.read_write_ne _ _ (Ne.symm (hj p (List.mem_cons_self ..)))]
    · have hs : exec (.stage p.1 p.2) s = .next { s with faults := [(.bufRange, .stage p.1 p.2)] } := by
        rw [exec, execStage, live_of_nil h.1, whenFree_of_idle h.2, bufWrite_past (by omega), orRaise_error,
          raise_of_nil h.1]
      rw [List.map_cons, execAll_cons hs] at he
      cases rest with
      | nil => cases he; simp at hu
      | cons q rest => rw [List.map_cons, execAll, exec_of_faulted rfl] at he; cases he

/-- Staging a payload that fits, on a free block, completes and leaves it staged (R80, R82). -/
theorem execAll_stage_bytes (payload : List Byte) (i : Nat) {s : State} (h : s.Free)
    (hb : i + payload.length ≤ s.params.bufSize) :
    ∃ u, execAll (payload.mapIdx fun k b => .stage (i + k) b) s = .next u ∧ u.Free ∧ u.params = s.params ∧
      ∀ j, u.buf.read j = if i ≤ j ∧ j < i + payload.length then payload[j - i]? else s.buf.read j := by
  induction payload generalizing i s with
  | nil => exact ⟨s, rfl, h, rfl, fun j => by rw [if_neg (by simp)]⟩
  | cons b rest ih =>
    simp only [List.length_cons] at hb
    obtain ⟨u, hu, hf, hp, hr⟩ := ih (i + 1) (s := addReply (.result .ok) { s with buf := s.buf.write i b }) h
      (by simpa [addReply] using (by omega : i + 1 + rest.length ≤ s.params.bufSize))
    refine ⟨u, ?_, hf, hp, fun j => ?_⟩
    · rw [List.mapIdx_cons, execAll_cons (exec_stage_of_free h (by simp; omega) b), ← hu]
      congr 2
      funext k c
      rw [Nat.add_right_comm, Nat.add_assoc]
    · rw [hr, addReply_buf]
      by_cases hj : j = i
      · subst hj; simp
      · by_cases h2 : i + 1 ≤ j ∧ j < i + 1 + rest.length
        · rw [if_pos h2, if_pos (by simp only [List.length_cons]; omega),
            show j - i = (j - (i + 1)) + 1 by omega, List.getElem?_cons_succ]
        · rw [if_neg h2, if_neg (by simp only [List.length_cons]; omega), Memory.read_write_ne _ _ hj]
end Sys2Proof.Machine
end

