-- ==== Sys2Proof/Laws/PerInstr.lean ====
section
/-! SUPPORT. Statements about every instruction as syntax, one lemma per constructor. -/

namespace Sys2Proof.Laws

/-- How many bytes an instruction's row takes (30_encoding.md R61; R50 for the four header bytes of a command). -/
def rowLength : Instr → Nat
  | .crc16 data => data.length + 2
  | .stage _ _ => 3
  | .fetch _ => 2
  | .sendCommand _ _ _ _ => 6
  | .read _ _ _ => 5
  | .write _ _ _ => 5
  | .recv _ => 2
  | .status => 1
  | .reset => 1
  | .readCmd _ _ _ => 4
  | .writeCmd _ _ _ => 4
  | .lockConfig => 4
  | .lockDataOtp => 4
  | .lockSlot0 => 4
  | .genkeyNew _ => 4
  | .random => 4
  | .complete _ data => data.length + 1

/-- The encoding has the length the table's row gives it. -/
def EncodedLength.Statement (i : Instr) : Prop := (encode i).bytes.length = rowLength i

theorem EncodedLength.crc16 (data : List Byte) : EncodedLength.Statement (.crc16 data) := rfl
theorem EncodedLength.stage (idx : Nat) (b : Byte) : EncodedLength.Statement (.stage idx b) := rfl
theorem EncodedLength.fetch (idx : Nat) : EncodedLength.Statement (.fetch idx) := rfl
theorem EncodedLength.sendCommand (op p1 : Byte) (p2 : Half) (n : Nat) : EncodedLength.Statement (.sendCommand op p1 p2 n) := rfl
theorem EncodedLength.read (zone : Byte) (addr : Half) (len : Nat) : EncodedLength.Statement (.read zone addr len) := rfl
theorem EncodedLength.write (zone : Byte) (addr : Half) (len : Nat) : EncodedLength.Statement (.write zone addr len) := rfl
theorem EncodedLength.recv (m : Nat) : EncodedLength.Statement (.recv m) := rfl
theorem EncodedLength.status : EncodedLength.Statement (.status) := rfl
theorem EncodedLength.reset : EncodedLength.Statement (.reset) := rfl
theorem EncodedLength.readCmd (zone : BitVec 7) (size : AccessSize) (addr : Half) : EncodedLength.Statement (.readCmd zone size addr) := rfl
theorem EncodedLength.writeCmd (zone : BitVec 7) (size : AccessSize) (addr : Half) : EncodedLength.Statement (.writeCmd zone size addr) := rfl
theorem EncodedLength.lockConfig : EncodedLength.Statement (.lockConfig) := rfl
theorem EncodedLength.lockDataOtp : EncodedLength.Statement (.lockDataOtp) := rfl
theorem EncodedLength.lockSlot0 : EncodedLength.Statement (.lockSlot0) := rfl
theorem EncodedLength.genkeyNew (slot : Half) : EncodedLength.Statement (.genkeyNew slot) := rfl
theorem EncodedLength.random : EncodedLength.Statement (.random) := rfl
theorem EncodedLength.complete (st : Status) (data : List Byte) : EncodedLength.Statement (.complete st data) := rfl

end Sys2Proof.Laws
end

