-- ==== Sys2Proof/Laws/Step.lean ====
section
/-! SUPPORT. What one step can do: it waits, or it runs one instruction with its input taken. -/

namespace Sys2Proof.Machine

/-- A step that answers a next state had no fault before it, and either waited for an input or ran an instruction on
the state with fewer inputs. -/
theorem step_next_cases {s t : State} (h : step s = .next t) :
    s.faults = [] ∧ ((s.inputs = [] ∧ t = s) ∨ ∃ i rest, exec i { s with inputs := rest } = .next t) := by
  unfold step fetch at h
  split at h
  · cases h
  · next hf =>
    split at hf <;> first | (cases hf; done) | skip
    · next h1 h2 => cases h; exact ⟨h1, .inl ⟨h2, rfl⟩⟩
    · split at hf <;> cases hf
  · cases h
  · next i s' hf =>
    split at hf
    · cases hf
    · cases hf
    · next h1 h2 => cases hf; exact ⟨h1, .inr ⟨_, _, h⟩⟩
    · next h1 h2 =>
      split at hf
      · cases hf
      · cases hf; exact ⟨h1, .inr ⟨_, _, h⟩⟩

end Sys2Proof.Machine
end

