-- ==== Sys2Proof/Tests/Slice0.lean ====
section
/-! SUPPORT. The model's own tests: ill-formed terms the checks refuse, words written out from the spec's encodings,
one step each from the vectors of 95_test_vectors.md (P_BUF_SIZE = 64, P_WORD_ADDR = 0x03), and for every statement
with hypotheses a state and operands that meet them. -/

namespace Sys2Proof.Tests

open Sys2Proof Sys2Proof.Machine

/-! ## Small states -/

/-- A buffer with the bytes in cells from i on. -/
def cellsFrom (i : Nat) : List Byte → Memory
  | [] => []
  | b :: rest => (i, b) :: cellsFrom (i + 1) rest

/-- The reset state with a payload staged in BUF[6 ..]. -/
def staged (payload : List Byte) : State := { State.reset with buf := cellsFrom 6 payload }

/-- The RANDOM frame of R106. -/
def randomFrame : List Byte := [0x03, 0x07, 0x1B, 0x00, 0x00, 0x00, 0x24, 0xCD]

/-- The RANDOM frame is on its way: XFER = Write(8). -/
def writing : State :=
  { State.reset with buf := cellsFrom 0 randomFrame, xfer := .write 8, hist := [.w randomFrame], crcReg := 0xCD24 }

/-- A read of m bytes is in flight, and cell 40 holds 0x11. -/
def reading (m : Nat) : State := { State.reset with buf := [(40, 0x11)], xfer := .read m, hist := [.r m] }

/-- A fault has been raised: program P5 of 95_test_vectors.md. -/
def faulted : State := { State.reset with faults := [(.unwritten, .write 0x00 0x0005 4)] }

/-- The outcome is a next state with the property. -/
def nextHas (o : StepOutcome) (p : State → Bool) : Bool :=
  match o with
  | .next t => p t
  | .fault _ => false
  | .refused _ => false

/-- The outcome is a next state whose newest record is the write of these bytes and whose newest reply is OK. -/
def sends (o : StepOutcome) (frame : List Byte) : Bool :=
  nextHas o fun t =>
    t.hist.getLast? == some (.w frame) && t.replies.getLast? == some (.result .ok) && t.xfer == .write frame.length

/-- The outcome is a next state with that newest reply. -/
def replies (o : StepOutcome) (v : Result) : Bool := nextHas o fun t => t.replies.getLast? == some (.result v)

/-- The outcome is a next state with that one fault. -/
def raises (o : StepOutcome) (f : FaultCode) (req : Instr) : Bool := nextHas o fun t => t.faults == [(f, req)]

/-! ## Ill-formed terms (R63: an encoded operand is one byte) -/

theorem test_wf_crc16 : wellFormed (.crc16 (List.replicate 256 0)) = false := by decide +kernel
theorem test_wf_stage : wellFormed (.stage 256 0) = false := by decide
theorem test_wf_fetch : wellFormed (.fetch 256) = false := by decide
theorem test_wf_sendCommand : wellFormed (.sendCommand 0 0 0 256) = false := by decide
theorem test_wf_read : wellFormed (.read 0 0 256) = false := by decide
theorem test_wf_write : wellFormed (.write 0 0 256) = false := by decide
theorem test_wf_recv : wellFormed (.recv 256) = false := by decide
theorem test_wf_boundary : wellFormed (.recv 255) = true := by decide

/-! ## Words written out from the spec's encodings -/

/-- R61, with the encodings of 95_test_vectors.md. -/
theorem test_decode_crc16 : decode ⟨.host, [0x01, 0x02, 0x04, 0x11]⟩ = .ok (.crc16 [0x04, 0x11], []) := by decide
theorem test_decode_stage : decode ⟨.host, [0x02, 0x06, 0x83]⟩ = .ok (.stage 6 0x83, []) := by decide
theorem test_decode_fetch : decode ⟨.host, [0x03, 0x17]⟩ = .ok (.fetch 23, []) := by decide
theorem test_decode_sendCommand :
    decode ⟨.host, [0x04, 0xAA, 0x55, 0x34, 0x12, 0x03]⟩ = .ok (.sendCommand 0xAA 0x55 0x1234 3, []) := by decide
theorem test_decode_read : decode ⟨.host, [0x05, 0x00, 0x10, 0x00, 0x20]⟩ = .ok (.read 0x00 0x0010 32, []) := by decide
theorem test_decode_write : decode ⟨.host, [0x06, 0x00, 0x05, 0x00, 0x04]⟩ = .ok (.write 0x00 0x0005 4, []) := by decide
theorem test_decode_recv : decode ⟨.host, [0x07, 0x23]⟩ = .ok (.recv 35, []) := by decide
theorem test_decode_status : decode ⟨.host, [0x08]⟩ = .ok (.status, []) := by decide
theorem test_decode_reset : decode ⟨.host, [0x09]⟩ = .ok (.reset, []) := by decide

/-- R50, R56, R58, R59: frame bytes 2 to 5 of the frames of 42_wire_commands.md. -/
theorem test_decode_readCmd : decode ⟨.cmdFrame, [0x02, 0x82, 0x10, 0x00]⟩ = .ok (.readCmd 2 .bytes32 0x0010, []) := by
  decide
theorem test_decode_writeCmd : decode ⟨.cmdFrame, [0x12, 0x00, 0x18, 0x00]⟩ = .ok (.writeCmd 0 .bytes4 0x0018, []) := by
  decide
theorem test_decode_lockConfig : decode ⟨.cmdFrame, [0x17, 0x80, 0x00, 0x00]⟩ = .ok (.lockConfig, []) := by decide
theorem test_decode_lockDataOtp : decode ⟨.cmdFrame, [0x17, 0x81, 0x00, 0x00]⟩ = .ok (.lockDataOtp, []) := by decide
theorem test_decode_lockSlot0 : decode ⟨.cmdFrame, [0x17, 0x82, 0x00, 0x00]⟩ = .ok (.lockSlot0, []) := by decide
theorem test_decode_genkeyNew : decode ⟨.cmdFrame, [0x40, 0x04, 0x01, 0x00]⟩ = .ok (.genkeyNew 1, []) := by decide
theorem test_decode_random : decode ⟨.cmdFrame, [0x1B, 0x00, 0x00, 0x00]⟩ = .ok (.random, []) := by decide
/-- R60: a header no row names is framed all the same. -/
theorem test_decode_unnamed :
    decode ⟨.cmdFrame, [0x17, 0x83, 0x00, 0x00]⟩ = .ok (.sendCommand 0x17 0x83 0x0000 0, []) := by decide
/-- R64: the status code of DATA_NAK. -/
theorem test_decode_complete : decode ⟨.event, [0x02]⟩ = .ok (.complete .dataNak [], []) := by decide
/-- R62 and R122: what the decoder refuses. -/
theorem test_decode_reserved : decode ⟨.host, [0x0A, 0x00]⟩ = .error (.reservedSelector 0x0A) := by decide
theorem test_decode_truncated : decode ⟨.host, [0x01, 0x02, 0x04]⟩ = .error (.truncated .host) := by decide
theorem test_decode_status_code : decode ⟨.event, [0xFF]⟩ = .error (.reservedStatus 0xFF) := by decide

/-- R61: the encodings of program P3 and of the CRC16 vectors. -/
theorem test_encode_words :
    (encode (.crc16 [])).bytes = [0x01, 0x00] ∧ (encode (.write 0x00 0x0018 4)).bytes = [0x06, 0x00, 0x18, 0x00, 0x04] ∧
    (encode (.sendCommand 0x1B 0x00 0x0000 0)).bytes = [0x04, 0x1B, 0x00, 0x00, 0x00, 0x00] := by decide

/-- Every row of the opcode table, by one word: the decoder reads its instruction and the machine runs it as its first
step after reset. -/
theorem test_table_rows :
    ([(8, 1), (8, 2), (8, 3), (8, 4), (8, 5), (8, 6), (8, 7), (8, 8), (8, 9), (16, 0x0200), (16, 0x1200), (16, 0x1780),
      (16, 0x1781), (16, 0x1782), (16, 0x4004), (16, 0x1B00), (0, 0)].map fun p =>
        (decodeTableWord p.1 p.2).map mnemonic) = opcodeRows.map fun r => some r.mnemonic := by decide +kernel
theorem test_table_rows_run :
    ([(8, 1), (8, 2), (8, 3), (8, 4), (8, 5), (8, 6), (8, 7), (8, 8), (8, 9), (16, 0x0200), (16, 0x1200), (16, 0x1780),
      (16, 0x1781), (16, 0x1782), (16, 0x4004), (16, 0x1B00), (0, 0)].all fun p =>
        nextHas (step (State.reset.withFetchWord p.1 p.2)) fun _ => true) = true := by decide +kernel
/-- No two rows of one format overlap. -/
theorem test_table_rows_disjoint :
    opcodeRows.Pairwise fun a b =>
      a.format ≠ b.format ∨ a.value &&& (a.mask &&& b.mask) ≠ b.value &&& (a.mask &&& b.mask) := by decide

/-! ## The CRC unit (95_test_vectors.md 2.1 to 2.4) -/

theorem test_crc_bit_shift_only : crcBit 0xFFFF true = 0xFFFE := by decide
theorem test_crc_bit_poly : crcBit 0x7FFF true = 0x7FFB := by decide
theorem test_crc_byte : crcByte 0x0000 0xFF = 0x0202 ∧ crcByte 0x0000 0x04 = 0x80C3 := by decide +kernel
theorem test_crc16_digits :
    Machine.crc16 [0x31, 0x32, 0x33, 0x34, 0x35, 0x36, 0x37, 0x38, 0x39] = 0xBCDD := by decide +kernel
theorem test_crc16_zeros :
    Machine.crc16 [0x00, 0x01] = 0x8303 ∧ Machine.crc16 [0x01, 0x00] = 0x8009 ∧ Machine.crc16 [0xFF, 0xFF] = 0x800D := by
  decide +kernel
theorem test_crc16_request : replies (exec (.crc16 [0x04, 0x11]) writing) (.okCrc 0x4333) = true := by decide +kernel
theorem test_crc16_request_empty :
    nextHas (exec (.crc16 []) writing) (fun t => t.crcReg == 0x0000) = true := by decide +kernel

/-! ## The buffer requests (2.7) -/

theorem test_stage : nextHas (exec (.stage 6 0x83) State.reset) (fun t => t.buf.read 6 == some 0x83) = true := by decide
theorem test_stage_range : raises (exec (.stage 64 0x00) State.reset) .bufRange (.stage 64 0x00) = true := by decide
theorem test_fetch : replies (exec (.fetch 6) (staged [0x83])) (.okByte 0x83) = true := by decide
theorem test_fetch_unwritten : raises (exec (.fetch 7) (staged [0x83])) .unwritten (.fetch 7) = true := by decide
theorem test_recv :
    nextHas (exec (.recv 64) State.reset) (fun t => t.xfer == .read 64 && t.hist == [.r 64]) = true := by decide
theorem test_recv_range : raises (exec (.recv 65) State.reset) .recvRange (.recv 65) = true := by decide
theorem test_status : replies (exec .status State.reset) (.okStatus .none false) = true := by decide
theorem test_status_busy : replies (exec .status writing) (.okStatus .none true) = true := by decide
theorem test_reset_clears :
    nextHas (exec .reset (staged [0x83])) (fun t => t.buf.read 6 == none && t.crcReg == 0 && t.lastStatus == .none) = true := by
  decide
theorem test_reset_busy : exec .reset writing = .refused .resetWhileBusy := rfl

/-! ## Framing (2.5, 2.6, 2.9) -/

theorem test_sendCommand :
    sends (exec (.sendCommand 0xAA 0x55 0x1234 3) (staged [0x01, 0x02, 0x03]))
      [0x03, 0x0A, 0xAA, 0x55, 0x34, 0x12, 0x01, 0x02, 0x03, 0xB6, 0x44] = true := by decide +kernel
theorem test_sendCommand_limit :
    raises (exec (.sendCommand 0 0 0 57) State.reset) .frameRange (.sendCommand 0 0 0 57) = true := by decide +kernel
theorem test_read_bit7_cleared :
    sends (exec (.read 0x80 0x0000 4) State.reset) [0x03, 0x07, 0x02, 0x00, 0x00, 0x00, 0x1E, 0x2D] = true := by
  decide +kernel
theorem test_read_bit7_set :
    sends (exec (.read 0x7F 0x0000 32) State.reset) [0x03, 0x07, 0x02, 0xFF, 0x00, 0x00, 0x12, 0x21] = true := by
  decide +kernel
theorem test_write :
    sends (exec (.write 0x00 0x0005 4) (staged [0x83, 0x20, 0x83, 0x20]))
      [0x03, 0x0B, 0x12, 0x00, 0x05, 0x00, 0x83, 0x20, 0x83, 0x20, 0x68, 0xDD] = true := by decide +kernel
theorem test_write_unstaged :
    raises (exec (.write 0x00 0x0005 4) (staged [0x83, 0x20, 0x83])) .unwritten (.write 0x00 0x0005 4) = true := by
  decide +kernel
theorem test_write_size : replies (exec (.write 0x00 0x0005 8) State.reset) .sizeError = true := by decide
theorem test_readCmd :
    sends (exec (.readCmd 2 .bytes32 0x0010) State.reset) [0x03, 0x07, 0x02, 0x82, 0x10, 0x00, 0x09, 0x98] = true := by
  decide +kernel
theorem test_writeCmd :
    sends (exec (.writeCmd 0 .bytes4 0x0018) (staged [0x33, 0x00, 0x33, 0x00]))
      [0x03, 0x0B, 0x12, 0x00, 0x18, 0x00, 0x33, 0x00, 0x33, 0x00, 0x91, 0xD7] = true := by decide +kernel
theorem test_lockConfig :
    sends (exec .lockConfig State.reset) [0x03, 0x07, 0x17, 0x80, 0x00, 0x00, 0x39, 0x8D] = true := by decide +kernel
theorem test_lockDataOtp :
    sends (exec .lockDataOtp State.reset) [0x03, 0x07, 0x17, 0x81, 0x00, 0x00, 0x3A, 0x07] = true := by decide +kernel
theorem test_lockSlot0 :
    sends (exec .lockSlot0 State.reset) [0x03, 0x07, 0x17, 0x82, 0x00, 0x00, 0x3A, 0x08] = true := by decide +kernel
theorem test_genkeyNew :
    sends (exec (.genkeyNew 1) State.reset) [0x03, 0x07, 0x40, 0x04, 0x01, 0x00, 0x8A, 0x07] = true := by decide +kernel
theorem test_random : sends (exec .random State.reset) randomFrame = true := by decide +kernel
/-- R55: the frame checker on a frame of 95_test_vectors.md, and on it with one byte wrong. -/
theorem test_frame_checker :
    frameOk [0x03, 0x0B, 0x12, 0x00, 0x05, 0x00, 0x83, 0x20, 0x83, 0x20, 0x68, 0xDD] = true ∧
    frameOk [0x03, 0x0B, 0x12, 0x00, 0x05, 0x00, 0x83, 0x20, 0x83, 0x21, 0x68, 0xDD] = false := by decide +kernel

/-! ## The completion (2.8) -/

theorem test_complete_write :
    nextHas (exec (.complete .addrNak []) writing) (fun t =>
      t.xfer == .idle && t.lastStatus == .of .addrNak && t.buf == writing.buf &&
        t.replies == [.notify .write .addrNak]) = true := by decide +kernel
theorem test_complete_failed_read :
    nextHas (exec (.complete .transportFault []) (reading 41)) (fun t =>
      t.buf.read 40 == none && t.hist.getLast? == some (.c .transportFault [])) = true := by decide
/-- R29 (log 10): a failed read is on record without bytes, also where its event carries one. -/
theorem test_complete_failed_read_bytes :
    nextHas (exec (.complete .dataNak [0x55]) (reading 2)) (fun t =>
      t.hist == [.r 2, .c .dataNak []] && t.xfer == .idle && t.lastStatus == .of .dataNak) = true := by decide
theorem test_complete_keeps_above :
    nextHas (exec (.complete .dataNak []) (reading 35)) (fun t => t.buf.read 40 == some 0x11) = true := by decide
theorem test_complete_spurious :
    raises (exec (.complete .ok []) State.reset) .spuriousCompletion (.complete .ok []) = true := by decide
theorem test_complete_bytes_on_write :
    raises (exec (.complete .ok [0x00]) writing) .completionLength (.complete .ok [0x00]) = true := by decide +kernel

/-! ## The step, codes and texts -/

/-- R125: after a fault no step is taken, RESET included. -/
theorem test_faulted_halts :
    step { faulted with inputs := [.typed .reset] } = .fault (.halted .unwritten (.write 0x00 0x0005 4)) := rfl
/-- R68: the bytes after a request's own length begin the next request. -/
theorem test_step_stream :
    nextHas (step { State.reset with inputs := [.packet ⟨.host, [0x08, 0x02, 0x06, 0x83]⟩] })
      (fun t => t.inputs == [.packet ⟨.host, [0x02, 0x06, 0x83]⟩]) = true := by decide
/-- R64, R65. -/
theorem test_codes :
    lastStatusCode .none = 0xFF ∧ lastStatusCode (.of .transportFault) = 0x03 ∧ resultCode .busy = 0x02 ∧
    resultCode .sizeError = 0x01 ∧ faultCodeByte .bufRange = 0x10 ∧ faultCodeByte .completionLength = 0x15 := by decide
/-- R66: the syntax of a request and of an event. -/
theorem test_assembly :
    assemblyText (.stage 6 0x83) = "stage 6, 131" ∧ assemblyText .status = "status" ∧
    assemblyText (.complete .addrNak []) = "complete ADDR_NAK, []" := by decide +kernel
/-- R57 and R107: 32 bytes of data in a 35-byte response. -/
theorem test_response :
    responseLength (.readCmd 0 .bytes32 0) = some 35 ∧ responseLength .lockConfig = some 1 ∧
    responseData [0x04, 0x11, 0x33, 0x43] = [0x11] := by decide

/-! ## Witnesses: for every statement with hypotheses, a state and operands that meet them -/

theorem witness_Crc16AnswersAndKeepsItsResult : writing.faults = [] := rfl
theorem witness_StageFollowsItsRule :
    State.reset.faults = [] ∧ State.reset.xfer = .idle ∧ 63 < State.reset.params.bufSize ∧
    64 ≥ State.reset.params.bufSize ∧ writing.faults = [] ∧ writing.xfer ≠ .idle := by decide
theorem witness_FetchFollowsItsRule :
    (staged [0x83]).faults = [] ∧ (staged [0x83]).xfer = .idle ∧ 6 < (staged [0x83]).params.bufSize ∧
    (staged [0x83]).buf.read 6 = some 0x83 ∧ 63 < (staged [0x83]).params.bufSize ∧
    (staged [0x83]).buf.read 63 = none ∧ 64 ≥ (staged [0x83]).params.bufSize ∧
    (reading 35).faults = [] ∧ (reading 35).xfer ≠ .idle := by decide
theorem witness_SendCommandFollowsItsRule :
    (staged [0x01, 0x02]).Free ∧ (staged [0x01, 0x02]).Fits 2 ∧ (staged [0x01, 0x02]).Staged [0x01, 0x02] ∧
    State.reset.Fits 56 ∧ State.reset.buf.read (6 + 55) = none ∧ 57 + 8 > State.reset.params.bufSize := by decide
theorem witness_ReadFollowsItsRule :
    State.reset.params.Valid ∧ State.reset.Free ∧ writing.params.Valid ∧ writing.OnLoan := by decide
theorem witness_WriteFollowsItsRule :
    (staged [0x83, 0x20, 0x83, 0x20]).params.Valid ∧ (staged [0x83, 0x20, 0x83, 0x20]).Free ∧
    (staged [0x83, 0x20, 0x83, 0x20]).Staged [0x83, 0x20, 0x83, 0x20] ∧ (staged [0x83]).Free ∧
    (staged [0x83]).buf.read (6 + 3) = none ∧ writing.OnLoan := by decide
theorem witness_SizeAndBusyPrecedence :
    writing.faults = [] ∧ writing.xfer ≠ .idle ∧ State.reset.faults = [] ∧ State.reset.xfer = .idle ∧
    (5 ≠ 4 ∧ 5 ≠ 32) ∧ (31 ≠ 4 ∧ 31 ≠ 32) := by decide
theorem witness_RecvFollowsItsRule :
    State.reset.Free ∧ 64 ≤ State.reset.params.bufSize ∧ 65 > State.reset.params.bufSize ∧ writing.OnLoan := by decide
theorem witness_BusyTurnsBufferRequestsAway :
    writing.OnLoan ∧ usesBuffer (.recv 1) = true ∧ sizeAccepted (.recv 1) = true ∧
    usesBuffer (.read 0 0 5) = true ∧ sizeAccepted (.read 0 0 5) = false := by decide
theorem witness_ReadCmdSendsItsFrame : State.reset.params.Valid ∧ State.reset.Free := by decide
theorem witness_WriteCmdSendsItsFrame :
    (staged [0x33, 0x00, 0x33, 0x00]).params.Valid ∧ (staged [0x33, 0x00, 0x33, 0x00]).Free ∧
    [0x33, 0x00, 0x33, 0x00].length = (if AccessSize.bytes4 = .bytes32 then 32 else 4) ∧
    (staged [0x33, 0x00, 0x33, 0x00]).Staged [0x33, 0x00, 0x33, 0x00] := by decide
theorem witness_WriteCmd_bytes32 :
    (staged (List.replicate 32 0x5A)).Free ∧ (staged (List.replicate 32 0x5A)).Staged (List.replicate 32 0x5A) := by
  decide +kernel
theorem witness_LockAndRandomFrames : State.reset.params.Valid ∧ State.reset.Free := by decide
theorem witness_GenkeySendsItsSlot : State.reset.params.Valid ∧ State.reset.Free := by decide
theorem witness_CommandFramesAreWellFormed : (List.replicate 248 (0 : Byte)).length ≤ 248 := by
  rw [List.length_replicate]
theorem witness_CrcLaws : ([0x12, 0x34] : List Byte).length = ([0x56, 0x78] : List Byte).length := rfl
theorem witness_CrcDetectsOneWrongByte : (0x00 : Byte) ≠ 0x80 := by decide
theorem witness_CrcIgnoresWordAddress :
    framesCommand .random = true ∧ nextHas (exec .random State.reset) (fun _ => true) = true ∧
    nextHas (exec .random { State.reset with params := { State.reset.params with wordAddr := 0x55 } })
      (fun t => t.crcReg == 0xCD24) = true := by decide +kernel
theorem witness_WriteCompletionKeepsTheBuffer : writing.faults = [] ∧ writing.xfer = .write 8 := by decide
theorem witness_ReadCompletionLandsItsBytes :
    (reading 2).faults = [] ∧ (reading 2).xfer = .read [0x23, 0x45].length ∧
    [0x23, 0x45].length ≤ (reading 2).params.bufSize := by decide
theorem witness_FailedReadInvalidatesItsCells :
    (reading 35).faults = [] ∧ (reading 35).xfer = .read 35 ∧ Status.dataNak ≠ .ok := by decide
theorem witness_InconsistentCompletionsFault :
    State.reset.faults = [] ∧ State.reset.xfer = .idle ∧ writing.xfer = .write 8 ∧ ([0x00] : List Byte) ≠ [] ∧
    (reading 35).xfer = .read 35 ∧ (List.replicate 34 (0 : Byte)).length ≠ 35 := by decide
theorem witness_StatusAnswersItsPair : writing.faults = [] ∧ State.reset.faults = [] := by decide
theorem witness_ResetFollowsItsRule :
    (staged [0x83]).faults = [] ∧ (staged [0x83]).xfer = .idle ∧ writing.faults = [] ∧ writing.xfer ≠ .idle := by decide
theorem witness_AFaultIsFinal : faulted.faults ≠ [] := by decide

/-- A state with a write transfer in flight that meets the invariant. -/
theorem writing_inv : writing.Inv :=
  { params := by decide
    canonical := by decide
    inBuffer := by decide
    xferInRange := by
      refine ⟨?_, ?_⟩
      · intro len h; cases h; decide
      · intro len h; cases h
    histBalanced := by decide
    loanKept := by
      refine ⟨?_, ?_, ?_⟩
      · intro h; cases h
      · intro len h; cases h; exact ⟨randomFrame, rfl, rfl, rfl⟩
      · intro len h; cases h
    recordsOk := by decide +kernel
    oneFault := by decide }

/-- A state with a read transfer of m bytes in flight that meets the invariant. -/
theorem reading_inv {m : Nat} (h1 : 1 ≤ m) (h2 : m ≤ 64) : (reading m).Inv :=
  { params := by rw [show (reading m).params = State.reset.params from rfl]; decide
    canonical := by simp [reading]
    inBuffer := by simp [reading, State.reset, Config.vectorParams]
    xferInRange := by
      refine ⟨?_, ?_⟩
      · intro len h; cases h
      · intro len h; cases h; exact ⟨h1, h2⟩
    histBalanced := rfl
    loanKept := by
      refine ⟨?_, ?_, ?_⟩
      · intro h; cases h
      · intro len h; cases h
      · intro len h; cases h; rfl
    recordsOk := by simp [reading, recordOk]
    oneFault := by simp [reading, State.reset] }

theorem witness_EveryStatusCanComplete : writing.Inv ∧ writing.OnLoan := ⟨writing_inv, by decide⟩
theorem witness_EveryStatusCanComplete_read : (reading 64).Inv ∧ (reading 64).OnLoan :=
  ⟨reading_inv (by omega) (by omega), by decide⟩
theorem witness_FaultsHaveTheirCauses :
    writing.Inv ∧ writing.faults = [] ∧ FaultCause .completionLength (.complete .ok [0x00]) writing :=
  ⟨writing_inv, rfl, .ok, [0x00], rfl, .inl ⟨8, rfl, by decide⟩⟩
theorem witness_ARaiseChangesOnlyFaults :
    nextHas (exec (.recv 0) State.reset) (fun t => t.faults != State.reset.faults) = true := by decide
theorem witness_ErrorResultsChangeNothing :
    nextHas (exec (.recv 1) writing) (fun t => t.replies == writing.replies ++ [.result .busy]) = true ∧
    nextHas (exec (.read 0 0 5) State.reset) (fun t => t.replies == State.reset.replies ++ [.result .sizeError]) = true := by
  decide +kernel
theorem witness_SplitPhase : issuesTransfer (.recv 35) = true ∧
    nextHas (exec (.recv 35) State.reset) (fun t => t.replies == State.reset.replies ++ [.result .ok]) = true ∧
    nextHas (exec (.recv 35) writing) (fun t => t.replies != writing.replies ++ [.result .ok]) = true := by decide +kernel
theorem witness_OnlyIssueAndCompleteMoveXfer :
    nextHas (exec (.recv 35) State.reset) (fun t => t.xfer != State.reset.xfer) = true ∧
    nextHas (exec (.complete .ok []) writing) (fun t => t.xfer != writing.xfer) = true := by decide +kernel
theorem witness_OnLoanOnlyAReadCompletionWrites :
    (reading 41).xfer ≠ .idle ∧
    nextHas (exec (.complete .addrNak []) (reading 41)) (fun t => t.buf != (reading 41).buf) = true := by decide
theorem witness_WritersOfEachElement :
    nextHas (exec .random State.reset) (fun t => t.crcReg != State.reset.crcReg && t.buf != State.reset.buf) = true ∧
    nextHas (exec (.complete .ok []) writing) (fun t => t.lastStatus != writing.lastStatus) = true := by decide +kernel
theorem witness_ReissueSendsTheSameFrame :
    framesCommand .random = true ∧ sends (exec .random State.reset) randomFrame = true ∧
    nextHas (exec .random State.reset) (fun t1 =>
      t1.hist == State.reset.hist ++ [.w randomFrame] &&
        nextHas (exec (.complete .addrNak []) t1) fun _ => true) = true := by decide +kernel
theorem witness_FrameStaysAfterItsWrite : randomFrame[7]? = some 0xCD := by decide
theorem witness_ResponsesAreReadableAfterOk :
    34 < 35 ∧ nextHas (exec (.recv 35) State.reset) (fun t => t.faults == []) = true ∧ State.reset.xfer = .idle ∧
    (List.replicate 35 (0 : Byte)).length = 35 ∧ Status.addrNak ≠ .ok := by decide
theorem witness_AFailedReadUnstagesThePayload :
    (reading 7).Inv ∧ (reading 7).xfer = .read 7 ∧ 6 < 7 ∧ Status.dataNak ≠ .ok ∧
    nextHas (exec (.complete .dataNak []) (reading 7)) (fun t => nextHas (exec (.write 0x00 0x0005 4) t)
      fun u => u.faults == [(.unwritten, .write 0x00 0x0005 4)]) = true :=
  ⟨reading_inv (by omega) (by omega), rfl, by omega, by decide, by decide +kernel⟩
/-- STAGE requests that leave cell 6 out, and those of the whole payload, after a failed read of 10 bytes. -/
theorem witness_AFailedRead_then_stages :
    (reading 10).Inv ∧ (0 : Nat) < 4 ∧ 6 + 0 < 10 ∧ (∀ p ∈ [(7, (0x20 : Byte)), (9, 0x20)], p.1 ≠ 6 + 0) ∧
    nextHas (execAll [.complete .dataNak [], .stage 7 0x20, .stage 9 0x20] (reading 10)) (fun u => u.faults == []) = true ∧
    ([0x83, 0x20, 0x83, 0x20] : List Byte).length = 4 ∧
    sends (execAll (.complete .dataNak [] :: (stagePayload [0x83, 0x20, 0x83, 0x20] ++ [.write 0x00 0x0005 4]))
      (reading 10)) [0x03, 0x0B, 0x12, 0x00, 0x05, 0x00, 0x83, 0x20, 0x83, 0x20, 0x68, 0xDD] = true :=
  ⟨reading_inv (by omega) (by omega), by omega, by omega, by decide, by decide +kernel, rfl, by decide +kernel⟩
theorem witness_EveryStepKeepsTheInvariant :
    { writing with inputs := [.packet ⟨.event, [0x00]⟩] }.Inv ∧
    nextHas (step { writing with inputs := [.packet ⟨.event, [0x00]⟩] }) (fun t => t.xfer == .idle) = true :=
  ⟨{ writing_inv with }, by decide +kernel⟩
theorem witness_DecodeEncodeRoundTrip :
    wellFormed (.stage 255 0xFF) = true ∧ (encode (.stage 255 0xFF)).format ≠ .event ∧
    wellFormed (.complete .ok [0x01]) = true := by decide
theorem witness_EveryHostRequestHasOneEncoding :
    decode ⟨.host, [0x01, 0x01, 0xAA, 0x08]⟩ = .ok (.crc16 [0xAA], [0x08]) := by decide
/-- The reset state with these inputs to come. -/
def given (inputs : List Input) : State := { State.reset with inputs := inputs }

theorem witness_ReservedAndShortRequestsAreRefused :
    (given [.packet ⟨.host, [0x0A, 0x00]⟩]).faults = [] ∧ (0x0A : Byte) ≤ 0x0A ∧
    (given [.packet ⟨.host, [0x0A, 0x00]⟩]).inputs = .packet ⟨.host, 0x0A :: [0x00]⟩ :: [] := by decide
theorem witness_ShortRequestsAreRefused :
    (given [.packet ⟨.host, [0x07]⟩]).faults = [] ∧ wellFormed (.recv 1) = true ∧ (encode (.recv 1)).format = .host ∧
    1 < (encode (.recv 1)).bytes.length ∧
    (given [.packet ⟨.host, [0x07]⟩]).inputs = .packet ⟨.host, (encode (.recv 1)).bytes.take 1⟩ :: [] := by decide
theorem witness_TableWordsDecodeToTheirRows :
    ⟨"READ.CMD", .cmdFrame, 0x0200, 0xFF00⟩ ∈ opcodeRows ∧ 0x02FF < 0x10000 ∧ 0x02FF &&& 0xFF00 = 0x0200 := by decide
theorem witness_MalformedCommandsAndCompletionsAreRefused :
    (given []).faults = [] ∧ ([0x17, 0x80, 0x00] : List Byte).length < 4 ∧
    (given [.packet ⟨.cmdFrame, [0x17, 0x80, 0x00]⟩]).inputs = .packet ⟨.cmdFrame, [0x17, 0x80, 0x00]⟩ :: [] ∧
    (given [.packet ⟨.event, []⟩]).inputs = .packet ⟨.event, []⟩ :: [] ∧ (0x04 : Byte) ≤ 0x04 ∧
    (given [.packet ⟨.event, [0x04]⟩]).inputs = .packet ⟨.event, 0x04 :: []⟩ :: [] := by decide
/-- R11, R63: 0xFF is 255 and {0xFF, 0x80} is 0xFF80, no negative numbers. -/
theorem test_operands_unsigned :
    decode ⟨.host, [0x03, 0xFF]⟩ = .ok (.fetch 255, []) ∧
    decode ⟨.host, [0x05, 0x80, 0x80, 0xFF, 0xFF]⟩ = .ok (.read 0x80 0xFF80 255, []) ∧
    raises (exec (.fetch 255) State.reset) .bufRange (.fetch 255) = true := by decide
theorem witness_EncodedOperandsAreUnsigned : ([0x04, 0x11] : List Byte).length = (0x02 : Byte).toNat := rfl
theorem witness_AStepRunsTheNextInput :
    (given [.packet ⟨.host, [0x08, 0x09]⟩]).faults = [] ∧
    (given [.packet ⟨.host, [0x08, 0x09]⟩]).inputs = .packet ⟨.host, [0x08, 0x09]⟩ :: [] ∧
    decode ⟨.host, [0x08, 0x09]⟩ = .ok (.status, 0x09 :: []) ∧ decode ⟨.host, [0x09]⟩ = .ok (.reset, []) ∧
    (given [.typed .status]).inputs = .typed .status :: [] ∧ (given []).inputs = [] := by decide

end Sys2Proof.Tests
end

section
/-! Inversion and evaluation lemmas of `exec`, `step` and `decodeHost` that the statements of 00_scope.md turn on. -/

namespace Sys2Proof.Machine

/-! ## What a framing instruction leaves in CRC_REG -/

theorem Sent.crcReg_eq {s t : State} {op p1 : Byte} {p2 : Half} {payload : List Byte}
    (h : Sent s op p1 p2 payload t) : t.crcReg = crc16 (crcSpan op p1 p2 payload) := by
  rw [h.2]

theorem Sent.faults_eq {s t : State} {op p1 : Byte} {p2 : Half} {payload : List Byte}
    (h : Sent s op p1 p2 payload t) : t.faults = s.faults := by
  rw [h.2]

/-- CRC_REG after SEND_COMMAND (R82) as a function of the state before: the CRC over the header fields and the staged
payload where the command is sent, the old value where it is answered BUSY or faults. P_WORD_ADDR does not occur. -/
def framedCrc (op p1 : Byte) (p2 : Half) (n : Nat) (s : State) : Half :=
  if s.xfer = .idle ∧ s.Fits n then
    match memRead s.params.bufSize s.buf Config.payloadStart n with
    | .ok payload => crc16 (crcSpan op p1 p2 payload)
    | .error _ => s.crcReg
  else s.crcReg

theorem framedCrc_of_not_fits {s : State} {n : Nat} (h : ¬ (s.xfer = .idle ∧ s.Fits n)) (op p1 : Byte) (p2 : Half) :
    framedCrc op p1 p2 n s = s.crcReg := if_neg h

theorem framedCrc_of_unstaged {s : State} {n : Nat} (h : ∃ k, k < n ∧ s.buf.read (6 + k) = none) (op p1 : Byte)
    (p2 : Half) : framedCrc op p1 p2 n s = s.crcReg := by
  obtain ⟨k, hk, hnone⟩ := h
  unfold framedCrc
  split
  · split
    · next payload hread =>
      obtain ⟨hlen, hcell⟩ := memRead_ok.1 hread
      have hsome := (hcell k hk).2
      rw [show Config.payloadStart + k = 6 + k from rfl, hnone, List.getElem?_eq_getElem (by omega)] at hsome
      cases hsome
    · rfl
  · rfl

theorem framedCrc_of_staged {s : State} {payload : List Byte} (hi : s.xfer = .idle) (hf : s.Fits payload.length)
    (hs : s.Staged payload) (op p1 : Byte) (p2 : Half) :
    framedCrc op p1 p2 payload.length s = crc16 (crcSpan op p1 p2 payload) := by
  have hread : memRead s.params.bufSize s.buf Config.payloadStart payload.length = .ok payload :=
    memRead_ok.2 ⟨rfl, fun k hk => ⟨by simp only [State.Fits, Config.payloadStart] at hf ⊢; omega, hs k hk⟩⟩
  rw [framedCrc, if_pos ⟨hi, hf⟩, hread]

theorem framedCrc_wordAddr (op p1 : Byte) (p2 : Half) (n : Nat) (s : State) (w : Byte) :
    framedCrc op p1 p2 n { s with params := { s.params with wordAddr := w } } = framedCrc op p1 p2 n s := rfl

theorem sendFrame_crcReg {req : Instr} {op p1 : Byte} {p2 : Half} {n : Nat} {s t : State}
    (h : sendFrame req op p1 p2 n s = .next t) : t.crcReg = framedCrc op p1 p2 n s := by
  rcases sendFrame_cases req op p1 p2 n s with ⟨hb, e⟩ | ⟨_, hr, e⟩ | ⟨_, _, hk, e⟩ |
    ⟨hi, hf, payload, t', rfl, hst, e, hsent, _⟩ <;> rw [e] at h <;> cases h
  · exact (framedCrc_of_not_fits (fun hc => hb hc.1) ..).symm
  · exact (framedCrc_of_not_fits (fun hc => hr hc.2) ..).symm
  · exact (framedCrc_of_unstaged hk ..).symm
  · rw [hsent.crcReg_eq, framedCrc_of_staged hi hf hst]

/-- A READ or WRITE of a bad length leaves CRC_REG as it was (R88, R89). -/
theorem exec_badSize_crcReg {i : Instr} {s t : State} (hz : sizeAccepted i = false) (h : exec i s = .next t) :
    t.crcReg = s.crcReg := by
  rw [exec_badSize hz] at h
  have hk := (live_eq_next.1 h).2
  split at hk <;> cases hk <;> rfl

/-- A framing instruction whose length is accepted leaves in CRC_REG what the one command it asks for does (R67, R82). -/
theorem exec_framing_crcReg {i : Instr} (hf : framesCommand i = true) (hz : sizeAccepted i = true) :
    ∃ op p1 p2 n, ∀ s t, exec i s = .next t → t.crcReg = framedCrc op p1 p2 n s := by
  obtain ⟨op, p1, p2, n, _, _, he⟩ := exec_framing hf hz
  refine ⟨op, p1, p2, n, fun s t h => ?_⟩
  rw [he] at h
  exact sendFrame_crcReg (live_eq_next.1 h).2

/-! ## What an instruction does to FAULTS -/

/-- Of all effects only a raise touches FAULTS, and it touches nothing else (R13, R124). -/
theorem Effect.faults_kept_or_raised {i : Instr} {s t : State} (h : Effect i s t) :
    t.faults = s.faults ∨ ∃ f, t = { s with faults := [(f, requestOf i)] } := by
  cases h with
  | raised f _ => exact .inr ⟨f, rfl⟩
  | sent _ _ _ _ _ _ _ _ _ _ hsent => exact .inl hsent.faults_eq
  | _ => exact .inl rfl

/-! ## One step by the next input -/

theorem step_of_no_input {s : State} (h : s.faults = []) (hin : s.inputs = []) : step s = .next s := by
  simp only [step, fetch, h, hin]

theorem step_of_typed {s : State} {i : Instr} {rest : List Input} (h : s.faults = [])
    (hin : s.inputs = .typed i :: rest) : step s = exec i { s with inputs := rest } := by
  simp only [step, fetch, h, hin]

theorem step_of_packet {s : State} {p : Packet} {i : Instr} {bytes : List Byte} {rest : List Input}
    (h : s.faults = []) (hin : s.inputs = .packet p :: rest) (hd : decode p = .ok (i, bytes)) :
    step s = exec i { s with inputs := remaining p.format bytes rest } := by
  simp only [step, fetch, h, hin, hd]

end Sys2Proof.Machine

namespace Sys2Proof

/-! ## The host requests off the front of a byte sequence (R61) -/

theorem decodeHost_crc16 {k : Byte} {data : List Byte} (h : data.length = k.toNat) (rest : List Byte) :
    decodeHost (0x01 :: k :: (data ++ rest)) = .ok (.crc16 data, rest) := by
  have hrow : decodeHost (0x01 :: k :: (data ++ rest)) =
      if k.toNat ≤ (data ++ rest).length then
        .ok (.crc16 ((data ++ rest).take k.toNat), (data ++ rest).drop k.toNat)
      else .error (.truncated .host) := rfl
  rw [hrow, ← h, if_pos (by simp), List.take_left, List.drop_left]

theorem decodeHost_stage (idx b : Byte) (rest : List Byte) :
    decodeHost (0x02 :: idx :: b :: rest) = .ok (.stage idx.toNat b, rest) := rfl

theorem decodeHost_fetch (idx : Byte) (rest : List Byte) :
    decodeHost (0x03 :: idx :: rest) = .ok (.fetch idx.toNat, rest) := rfl

theorem decodeHost_sendCommand (op p1 lo hi n : Byte) (rest : List Byte) :
    decodeHost (0x04 :: op :: p1 :: lo :: hi :: n :: rest) =
      .ok (.sendCommand op p1 (halfOf lo hi) n.toNat, rest) := rfl

theorem decodeHost_read (zone lo hi len : Byte) (rest : List Byte) :
    decodeHost (0x05 :: zone :: lo :: hi :: len :: rest) = .ok (.read zone (halfOf lo hi) len.toNat, rest) := rfl

theorem decodeHost_write (zone lo hi len : Byte) (rest : List Byte) :
    decodeHost (0x06 :: zone :: lo :: hi :: len :: rest) = .ok (.write zone (halfOf lo hi) len.toNat, rest) := rfl

theorem decodeHost_recv (m : Byte) (rest : List Byte) :
    decodeHost (0x07 :: m :: rest) = .ok (.recv m.toNat, rest) := rfl

/-! ## A number as the sum of its bits (R11) -/

theorem sum_testBit_eq_mod (x n : Nat) :
    ((List.range n).map fun k => if x.testBit k then 2 ^ k else 0).sum = x % 2 ^ n := by
  induction n with
  | zero => simp [Nat.mod_one]
  | succ n ih =>
    rw [List.range_succ, List.map_append, List.sum_append, ih, Nat.mod_pow_succ]
    rcases Nat.mod_two_eq_zero_or_one (x / 2 ^ n) with hbit | hbit <;>
      simp [Nat.testBit_eq_decide_div_mod_eq, hbit]

theorem toNat_eq_sum_getLsbD (b : Byte) :
    b.toNat = ((List.range 8).map fun k => if b.getLsbD k then 2 ^ k else 0).sum := by
  have hsum := sum_testBit_eq_mod b.toNat 8
  rw [Nat.mod_eq_of_lt b.isLt] at hsum
  exact hsum.symm

end Sys2Proof
end

section
/-! The obligations of 00_scope.md, each from the lemmas above. -/

namespace Sys2Proof.Machine

/-- Settles O20: CRC_REG is `framedCrc` of the state before, in which P_WORD_ADDR does not occur; a bad length leaves
CRC_REG alone in both runs. -/
theorem crcIgnoresWordAddress : Obligations.CrcIgnoresWordAddress := by
  unfold Obligations.CrcIgnoresWordAddress
  intro i s t u w hf ht hu
  cases hz : sizeAccepted i with
  | false => exact (exec_badSize_crcReg hz ht).trans (exec_badSize_crcReg hz hu).symm
  | true =>
    obtain ⟨op, p1, p2, n, hcrc⟩ := exec_framing_crcReg hf hz
    calc
      t.crcReg = framedCrc op p1 p2 n s := hcrc s t ht
      _ = framedCrc op p1 p2 n { s with params := { s.params with wordAddr := w } } :=
        (framedCrc_wordAddr op p1 p2 n s w).symm
      _ = u.crcReg := (hcrc _ u hu).symm

/-- Settles O31, by the cases of `Effect`. -/
theorem aRaiseChangesOnlyFaults : Obligations.ARaiseChangesOnlyFaults := by
  unfold Obligations.ARaiseChangesOnlyFaults
  intro i s t h hne
  exact (exec_effect h).2.faults_kept_or_raised.resolve_left hne

/-- Settles O50: the two packet clauses are one lemma, with no bytes left and with some left. -/
theorem aStepRunsTheNextInput : Obligations.AStepRunsTheNextInput := by
  unfold Obligations.AStepRunsTheNextInput
  intro s rest h
  exact ⟨fun _ _ hin hd => step_of_packet h hin hd, fun _ _ _ _ hin hd => step_of_packet h hin hd,
    fun _ hin => step_of_typed h hin, step_of_no_input h⟩

/-- Settles O52: the rows of the decoder, with `toNat_halfOf` for the two-byte operands. -/
theorem encodedOperandsAreUnsigned : Obligations.EncodedOperandsAreUnsigned := by
  unfold Obligations.EncodedOperandsAreUnsigned
  have hhalf (lo hi : Byte) : (halfOf lo hi).toNat = 256 * hi.toNat + lo.toNat := by
    rw [toNat_halfOf, Nat.mul_comm]
  refine ⟨fun b => ⟨toNat_eq_sum_getLsbD b, Nat.le_of_lt_succ b.isLt⟩, fun k data h => ?_, fun i b => ?_, fun i => ?_,
    fun op p1 lo hi n => ⟨halfOf lo hi, hhalf lo hi, ?_⟩,
    fun zone lo hi len => ⟨halfOf lo hi, hhalf lo hi, ?_, ?_⟩, fun m => ?_⟩
  · simpa [decode] using decodeHost_crc16 h []
  · exact decodeHost_stage i b []
  · exact decodeHost_fetch i []
  · exact decodeHost_sendCommand op p1 lo hi n []
  · exact decodeHost_read zone lo hi len []
  · exact decodeHost_write zone lo hi len []
  · exact decodeHost_recv m []

end Sys2Proof.Machine
end

section
/-! What no instruction reads: CRC_REG (10_state.md R23) and HIST (R29). Two states that differ in them alone take the
same change (exec_sameChange). -/

namespace Sys2Proof.Machine

/-- What an instruction may write, without the state it writes to: the values it sets, the pair it adds to FAULTS, the
record it appends to HIST, the reply it gives, and whether it makes a free choice. -/
structure Change where
  crcReg : Option Half := none
  buf : Option Memory := none
  xfer : Option Xfer := none
  lastStatus : Option LastStatus := none
  fault : Option (FaultCode × Instr) := none
  transfer : Option Transfer := none
  reply : Option Reply := none
  chooses : Bool := false

/-- The state after a change. -/
def Change.apply (c : Change) (s : State) : State where
  params := s.params
  crcReg := c.crcReg.getD s.crcReg
  buf := c.buf.getD s.buf
  xfer := c.xfer.getD s.xfer
  lastStatus := c.lastStatus.getD s.lastStatus
  faults := c.fault.elim s.faults s.faults.insert
  hist := c.transfer.elim s.hist fun r => s.hist ++ [r]
  inputs := s.inputs
  replies := c.reply.elim s.replies fun v => s.replies ++ [v]
  choices := if c.chooses then s.choices + 1 else s.choices

/-- The state with other values in the two elements no instruction reads. -/
def State.withUnread (s : State) (v : Half) (h : List Transfer) : State := { s with crcReg := v, hist := h }

/-- Two outcomes are of one kind: one change, made to each of the two states, or one fault, or one refusal. -/
inductive SameChange (s : State) (v : Half) (h : List Transfer) : StepOutcome → StepOutcome → Prop
  | next (c : Change) : SameChange s v h (.next (c.apply s)) (.next (c.apply (s.withUnread v h)))
  | fault (r : Fault) : SameChange s v h (.fault r) (.fault r)
  | refused (r : Refusal) : SameChange s v h (.refused r) (.refused r)

theorem mapNext_id (o : StepOutcome) : mapNext id o = o := by cases o <;> rfl

/-- What holds of every change made to the two states holds of two outcomes of one kind. -/
theorem SameChange.mapNext_eq {s : State} {v : Half} {h : List Transfer} {o o' : StepOutcome}
    (hs : SameChange s v h o o') {f g : State → State}
    (hc : ∀ c : Change, f (c.apply (s.withUnread v h)) = g (c.apply s)) :
    mapNext f o' = mapNext g o := by
  cases hs with
  | next c => exact congrArg Host.Outcome.next (hc c)
  | fault r => rfl
  | refused r => rfl

/-! ## The shared operations -/

section
variable {s : State} {v : Half} {h : List Transfer} {k k' : StepOutcome}

theorem live_sameChange (hk : SameChange s v h k k') :
    SameChange s v h (live s k) (live (s.withUnread v h) k') := by
  cases hf : s.faults with
  | nil => rwa [live_of_nil hf, live_of_nil (s := s.withUnread v h) hf]
  | cons p rest =>
    rw [live_of_cons hf, live_of_cons (s := s.withUnread v h) hf]
    exact .fault _

theorem whenFree_sameChange (hk : SameChange s v h k k') :
    SameChange s v h (whenFree s k) (whenFree (s.withUnread v h) k') := by
  by_cases hx : s.xfer = .idle
  · rwa [whenFree_of_idle hx, whenFree_of_idle (s := s.withUnread v h) hx]
  · rw [whenFree_of_busy hx, whenFree_of_busy (s := s.withUnread v h) hx]
    exact .next { reply := some (.result .busy) }

theorem raise_sameChange (f : FaultCode) (req : Instr) :
    SameChange s v h (raise f req s) (raise f req (s.withUnread v h)) :=
  .next { fault := some (f, req) }

theorem orRaise_sameChange {α : Type} (req : Instr) (e : Except FaultCode α) {j j' : α → StepOutcome}
    (hj : ∀ x, SameChange s v h (j x) (j' x)) :
    SameChange s v h (orRaise req s e j) (orRaise req (s.withUnread v h) e j') := by
  cases e with
  | error f => exact raise_sameChange f req
  | ok x => exact hj x

theorem ite_sameChange {p : Prop} [Decidable p] {o o' : StepOutcome} (hk : SameChange s v h k k')
    (ho : SameChange s v h o o') :
    SameChange s v h (if p then k else o) (if p then k' else o') := by
  split
  · exact hk
  · exact ho

theorem whenSized_sameChange (len : Nat) (hk : SameChange s v h k k') :
    SameChange s v h (whenSized len s k) (whenSized len (s.withUnread v h) k') :=
  ite_sameChange hk (ite_sameChange (.next { reply := some (.result _), chooses := true })
    (.next { reply := some (.result .sizeError) }))

variable (s v h)

theorem sendFrame_sameChange (req : Instr) (op p1 : Byte) (p2 : Half) (n : Nat) :
    SameChange s v h (sendFrame req op p1 p2 n s) (sendFrame req op p1 p2 n (s.withUnread v h)) := by
  refine whenFree_sameChange (ite_sameChange (raise_sameChange _ _) ?_)
  refine orRaise_sameChange _ _ fun _ => orRaise_sameChange _ _ fun _ => orRaise_sameChange _ _ fun span =>
    orRaise_sameChange _ _ fun b2 => orRaise_sameChange _ _ fun frame => ?_
  exact .next { crcReg := some (crc16 span), buf := some b2, xfer := some (.write frame.length),
                transfer := some (.w frame), reply := some (.result .ok) }

theorem readRequest_sameChange (req : Instr) (zone : Byte) (addr : Half) (len : Nat) :
    SameChange s v h (readRequest req zone addr len s) (readRequest req zone addr len (s.withUnread v h)) :=
  live_sameChange (whenSized_sameChange len (sendFrame_sameChange s v h ..))

theorem writeRequest_sameChange (req : Instr) (zone : Byte) (addr : Half) (len : Nat) :
    SameChange s v h (writeRequest req zone addr len s)
      (writeRequest req zone addr len (s.withUnread v h)) :=
  live_sameChange (whenSized_sameChange len (sendFrame_sameChange s v h ..))

theorem plainCommand_sameChange (op p1 : Byte) (p2 : Half) :
    SameChange s v h (plainCommand op p1 p2 s) (plainCommand op p1 p2 (s.withUnread v h)) :=
  live_sameChange (sendFrame_sameChange s v h ..)

/-! ## The completion -/

/-- The end of a completion, with whatever it left in BUF. -/
theorem finishTransfer_sameChange (b : Memory) (dir : Direction) (st : Status) (d : List Byte) :
    SameChange s v h (finishTransfer dir st d { s with buf := b })
      (finishTransfer dir st d { s.withUnread v h with buf := b }) :=
  .next { buf := some b, lastStatus := some (.of st), xfer := some .idle, transfer := some (completionRecord st d),
          reply := some (.notify dir st) }

theorem execComplete_sameChange (st : Status) (data : List Byte) :
    SameChange s v h (execComplete st data s) (execComplete st data (s.withUnread v h)) := by
  refine live_sameChange ?_
  rw [show (s.withUnread v h).xfer = s.xfer from rfl]
  cases s.xfer with
  | idle => exact raise_sameChange ..
  | write len => exact ite_sameChange (raise_sameChange ..) (finishTransfer_sameChange s v h s.buf ..)
  | read m =>
    refine ite_sameChange (ite_sameChange (raise_sameChange ..) ?_) (finishTransfer_sameChange ..)
    exact orRaise_sameChange _ _ fun b => finishTransfer_sameChange s v h b ..

end

/-! ## Every instruction -/

/-- The change an instruction makes does not depend on CRC_REG and HIST (R23, R29). -/
theorem exec_sameChange (i : Instr) (s : State) (v : Half) (h : List Transfer) :
    SameChange s v h (exec i s) (exec i (s.withUnread v h)) := by
  cases i with
  | crc16 data =>
    exact live_sameChange (.next { crcReg := some (crc16 data), reply := some (.result (.okCrc (crc16 data))) })
  | stage idx b =>
    exact live_sameChange (whenFree_sameChange (orRaise_sameChange _ _ fun m =>
      .next { buf := some m, reply := some (.result .ok) }))
  | fetch idx =>
    exact live_sameChange (whenFree_sameChange (orRaise_sameChange _ _ fun b =>
      .next { reply := some (.result (.okByte b)) }))
  | sendCommand op p1 p2 n => exact live_sameChange (sendFrame_sameChange ..)
  | read zone addr len => exact readRequest_sameChange ..
  | write zone addr len => exact writeRequest_sameChange ..
  | recv m =>
    exact live_sameChange (whenFree_sameChange (ite_sameChange (raise_sameChange _ _)
      (.next { xfer := some (.read m), transfer := some (.r m), reply := some (.result .ok) })))
  | status => exact live_sameChange (.next { reply := some (.result (.okStatus s.lastStatus (busy s))) })
  | reset =>
    exact live_sameChange (ite_sameChange (.refused .resetWhileBusy)
      (.next { crcReg := some Config.crcInit, buf := some [], xfer := some .idle, lastStatus := some .none,
               reply := some (.result .ok) }))
  | readCmd zone size addr => exact readRequest_sameChange ..
  | writeCmd zone size addr => exact writeRequest_sameChange ..
  | lockConfig => exact plainCommand_sameChange ..
  | lockDataOtp => exact plainCommand_sameChange ..
  | lockSlot0 => exact plainCommand_sameChange ..
  | genkeyNew slot => exact plainCommand_sameChange ..
  | random => exact plainCommand_sameChange ..
  | complete st data => exact execComplete_sameChange ..

/-- A change appends to HIST whatever stands before it. -/
theorem Change.apply_hist_append (c : Change) (s : State) (h : List Transfer) :
    c.apply (s.withUnread s.crcReg (h ++ s.hist)) = { c.apply s with hist := h ++ (c.apply s).hist } := by
  cases hc : c.transfer <;> simp [Change.apply, State.withUnread, hc]

end Sys2Proof.Machine
end

section
/-! Which instructions write each element of the state, from the cases of `Effect` (10_state.md R23 to R29, R32). -/

namespace Sys2Proof.Machine

variable {i : Instr} {s t : State}

/-! ## What a sent frame leaves -/

section
variable {op p1 : Byte} {p2 : Half} {payload : List Byte}

theorem Sent.params_eq (h : Sent s op p1 p2 payload t) : t.params = s.params := by rw [h.2]

theorem Sent.xfer_eq (h : Sent s op p1 p2 payload t) : t.xfer = .write (payload.length + 8) := by rw [h.2]

theorem Sent.lastStatus_eq (h : Sent s op p1 p2 payload t) : t.lastStatus = s.lastStatus := by rw [h.2]

theorem Sent.hist_eq (h : Sent s op p1 p2 payload t) :
    t.hist = s.hist ++ [.w (commandFrame s.params.wordAddr op p1 p2 payload)] := by rw [h.2]

theorem Sent.inputs_eq (h : Sent s op p1 p2 payload t) : t.inputs = s.inputs := by rw [h.2]

end

/-! ## The writers of each element -/

theorem Effect.params_eq (h : Effect i s t) : t.params = s.params := by
  cases h with
  | sent _ _ _ _ _ _ _ _ _ _ hsent => exact hsent.params_eq
  | _ => rfl

theorem Effect.inputs_eq (h : Effect i s t) : t.inputs = s.inputs := by
  cases h with
  | sent _ _ _ _ _ _ _ _ _ _ hsent => exact hsent.inputs_eq
  | _ => rfl

theorem Effect.hist_prefix (h : Effect i s t) : s.hist <+: t.hist := by
  cases h with
  | sent _ _ _ _ _ _ _ _ _ _ hsent => rw [hsent.hist_eq]; exact List.prefix_append ..
  | received | writeDone | readDone | readFailed => exact List.prefix_append ..
  | _ => exact List.prefix_rfl

theorem Effect.crcReg_writers (h : Effect i s t) :
    t.crcReg = s.crcReg ∨ framesCommand i = true ∨ i = .reset ∨ ∃ data, i = .crc16 data := by
  cases h with
  | sent _ _ _ _ hframes => exact .inr (.inl hframes)
  | reset => exact .inr (.inr (.inl rfl))
  | crc data => exact .inr (.inr (.inr ⟨data, rfl⟩))
  | _ => exact .inl rfl

theorem Effect.buf_writers (h : Effect i s t) :
    t.buf = s.buf ∨ framesCommand i = true ∨ i = .reset ∨ (∃ idx b, i = .stage idx b) ∨
      ∃ st data, i = .complete st data := by
  cases h with
  | sent _ _ _ _ hframes => exact .inr (.inl hframes)
  | reset => exact .inr (.inr (.inl rfl))
  | staged idx b => exact .inr (.inr (.inr (.inl ⟨idx, b, rfl⟩)))
  | readDone _ data => exact .inr (.inr (.inr (.inr ⟨.ok, data, rfl⟩)))
  | readFailed _ st data => exact .inr (.inr (.inr (.inr ⟨st, data, rfl⟩)))
  | _ => exact .inl rfl

theorem Effect.lastStatus_writers (h : Effect i s t) :
    t.lastStatus = s.lastStatus ∨ i = .reset ∨ ∃ st data, i = .complete st data := by
  cases h with
  | sent _ _ _ _ _ _ _ _ _ _ hsent => exact .inl hsent.lastStatus_eq
  | reset => exact .inr (.inl rfl)
  | writeDone _ st => exact .inr (.inr ⟨st, [], rfl⟩)
  | readDone _ data => exact .inr (.inr ⟨.ok, data, rfl⟩)
  | readFailed _ st data => exact .inr (.inr ⟨st, data, rfl⟩)
  | _ => exact .inl rfl

end Sys2Proof.Machine
end

section
/-! The invariant of the block, kept by every effect: a request that issues nothing, an issue, and a completion each
keep it for one reason (10_state.md R33, 20_memory.md R42, 41_framer.md R91). -/

namespace Sys2Proof.Machine

/-! ## The frame checker accepts what the framer sends (30_encoding.md R55) -/

theorem toNat_lengthByte {n : Nat} (h : n ≤ 248) : (lengthByte n).toNat = n + 7 := by
  rw [lengthByte, BitVec.toNat_ofNat, Nat.mod_eq_of_lt (by omega)]

theorem frameOk_commandFrame {payload : List Byte} (h : payload.length ≤ 248) (w op p1 : Byte) (p2 : Half) :
    frameOk (commandFrame w op p1 p2 payload) = true := by
  have hlen : (commandFrame w op p1 p2 payload).length - 2 = (w :: crcSpan op p1 p2 payload).length := by simp
  have hsplit : commandFrame w op p1 p2 payload =
      (w :: crcSpan op p1 p2 payload) ++ le16 (crc16 (crcSpan op p1 p2 payload)) := rfl
  have hbyte : (commandFrame w op p1 p2 payload).getD 1 0 = lengthByte payload.length := rfl
  have hdrop : (commandFrame w op p1 p2 payload).drop ((commandFrame w op p1 p2 payload).length - 2) =
      le16 (crc16 (crcSpan op p1 p2 payload)) := by rw [hlen, hsplit, List.drop_left]
  have htake : ((commandFrame w op p1 p2 payload).take ((commandFrame w op p1 p2 payload).length - 2)).drop 1 =
      crcSpan op p1 p2 payload := by rw [hlen, hsplit, List.take_left]; rfl
  rw [frameOk, hdrop, htake, hbyte, toNat_lengthByte h, length_commandFrame]
  simp

/-- A sent frame is a good record: the checker accepts it and it begins with the marker (R50, R55). -/
theorem recordOk_commandFrame {payload : List Byte} (h : payload.length ≤ 248) (w op p1 : Byte) (p2 : Half) :
    recordOk w (.w (commandFrame w op p1 p2 payload)) = true := by
  have hhead : (commandFrame w op p1 p2 payload).head? = some w := rfl
  simp [recordOk, frameOk_commandFrame h, hhead]

/-- The record of a completion is good where a status other than OK comes without bytes (R29). -/
theorem recordOk_complete {st : Status} {data : List Byte} (h : st = .ok ∨ data = []) (w : Byte) :
    recordOk w (.c st data) = true := by
  simpa [recordOk] using h

/-! ## The three ways a step keeps the invariant -/

variable {s t : State}

/-- A new record keeps the old ones good, where the marker stays (R32). -/
theorem State.Inv.recordsOk_append (hs : s.Inv) {r : Transfer} (hp : t.params = s.params)
    (hh : t.hist = s.hist ++ [r]) (hr : recordOk s.params.wordAddr r = true) :
    ∀ q ∈ t.hist, recordOk t.params.wordAddr q = true := by
  intro q hq
  rw [hp]
  rw [hh, List.mem_append, List.mem_singleton] at hq
  rcases hq with hq | rfl
  · exact hs.recordsOk q hq
  · exact hr

/-- With no transfer in flight any canonical buffer inside its bounds will do (STAGE, RESET). -/
theorem State.Inv.setBuf (hs : s.Inv) (idle : s.xfer = .idle) {b : Memory} (hw : b.wf)
    (hb : ∀ c ∈ b, c.1 < s.params.bufSize) : { s with buf := b }.Inv :=
  { hs with
    canonical := hw
    inBuffer := hb
    loanKept := by simpa [State.LoanKept, idle] using hs.loanKept.1 idle }

/-- An issue adds the one record the transfer in flight asks for (R33). -/
theorem State.Inv.histBalanced_issue (hs : s.Inv) {r : Transfer} (idle : s.xfer = .idle) (hx : t.xfer ≠ .idle)
    (hh : t.hist = s.hist ++ [r]) (hr : isIssue r = true) : t.HistBalanced := by
  simpa [State.HistBalanced, hx, hh, hr, idle] using hs.histBalanced

/-- A sent frame keeps the invariant: it fits, it stands in the buffer as read back, and it is well-formed (R82). -/
theorem State.Inv.sent (hs : s.Inv) (idle : s.xfer = .idle) {op p1 : Byte} {p2 : Half} {payload : List Byte}
    (fits : s.Fits payload.length) (hsent : Sent s op p1 p2 payload t)
    (back : memRead s.params.bufSize t.buf 0 (payload.length + 8) =
      .ok (commandFrame s.params.wordAddr op p1 p2 payload))
    (hw : t.buf.wf) (hb : ∀ c ∈ t.buf, c.1 < s.params.bufSize) : t.Inv where
  params := hsent.params_eq ▸ hs.params
  canonical := hw
  inBuffer := hsent.params_eq ▸ hb
  xferInRange := by
    have hrange : payload.length + 8 ≤ 256 ∧ payload.length + 8 ≤ s.params.bufSize := by
      simp only [State.Fits] at fits
      omega
    simpa [State.XferInRange, hsent.xfer_eq, hsent.params_eq] using hrange
  histBalanced := hs.histBalanced_issue idle (by simp [hsent.xfer_eq]) hsent.hist_eq rfl
  loanKept := by simp [State.LoanKept, hsent.xfer_eq, hsent.hist_eq, hsent.params_eq, back]
  recordsOk := hs.recordsOk_append hsent.params_eq hsent.hist_eq (recordOk_commandFrame fits.1 ..)
  oneFault := hsent.faults_eq ▸ hs.oneFault

/-- A receive request of a length in range keeps the invariant (R86). -/
theorem State.Inv.received (hs : s.Inv) (idle : s.xfer = .idle) {m : Nat} (lo : 1 ≤ m) (hi : m ≤ s.params.bufSize) :
    (addReply (.result .ok) (issueRead m s)).Inv where
  params := hs.params
  canonical := hs.canonical
  inBuffer := hs.inBuffer
  xferInRange := by simpa [State.XferInRange] using ⟨lo, hi⟩
  histBalanced := hs.histBalanced_issue idle (by simp) rfl rfl
  loanKept := by simp [State.LoanKept]
  recordsOk := hs.recordsOk_append rfl rfl rfl
  oneFault := hs.oneFault

/-- A completion takes the transfer out of flight and puts the record that balances its issue last (R33, R126). -/
theorem State.Inv.completed (hs : s.Inv) (loan : s.xfer ≠ .idle) {st : Status} {data : List Byte} {b : Memory}
    (hr : st = .ok ∨ data = []) (hw : b.wf) (hb : ∀ c ∈ b, c.1 < s.params.bufSize) :
    (record (.c st data) { s with buf := b, xfer := .idle }).Inv where
  params := hs.params
  canonical := hw
  inBuffer := hb
  xferInRange := by simp [State.XferInRange]
  histBalanced := by simpa [State.HistBalanced, isIssue, loan] using hs.histBalanced
  loanKept := by simp [State.LoanKept, isIssue]
  recordsOk := hs.recordsOk_append rfl rfl (recordOk_complete hr _)
  oneFault := hs.oneFault

/-- What can happen to a state that meets the invariant leaves one that does. -/
theorem Effect.keeps_inv {i : Instr} (h : Effect i s t) (hs : s.Inv) : t.Inv := by
  cases h with
  | raised => exact { hs with oneFault := Nat.le_refl 1 }
  | busy | sizeError | chosen | crc | fetched | status => exact { hs with }
  | staged idx b idle inside =>
    exact { hs.setBuf idle (Memory.wf_write hs.canonical idx b)
      (Memory.forall_write (P := (· < s.params.bufSize)) hs.inBuffer inside) with }
  | reset idle =>
    have hempty := hs.setBuf idle (b := []) List.Pairwise.nil (by simp)
    rw [idle] at hempty
    exact { hempty with }
  | sent _ _ _ _ _ _ _ idle fits _ hsent back wf inBuffer =>
    exact hs.sent idle fits hsent back (wf hs.canonical) (inBuffer hs.inBuffer)
  | received m idle lo hi => exact hs.received idle lo hi
  | writeDone len st inFlight =>
    exact { hs.completed (by simp [inFlight]) (.inr rfl) hs.canonical hs.inBuffer with }
  | readDone m data b inFlight len write =>
    have hfits : 0 + data.length ≤ s.params.bufSize := by
      rw [Nat.zero_add, len]; exact (hs.xferInRange.2 m inFlight).2
    obtain ⟨b', hb', -, wf, inBuffer⟩ := memWrite_inside (m := s.buf) hfits
    obtain rfl : b' = b := by simpa [hb'] using write
    exact { hs.completed (by simp [inFlight]) (.inl rfl) (wf hs.canonical) (inBuffer hs.inBuffer) with }
  | readFailed m st data inFlight =>
    exact { hs.completed (by simp [inFlight]) (.inr rfl) (Memory.wf_clearBelow hs.canonical m)
      (Memory.forall_clearBelow (P := (· < s.params.bufSize)) m hs.inBuffer) with }

end Sys2Proof.Machine
end

section
/-! The obligations of 10_state.md, each from the lemmas above. -/

namespace Sys2Proof.Machine

/-- Settles O44: the inputs are no part of the invariant, and the effect of the instruction run keeps it. -/
theorem everyStepKeepsTheInvariant : Obligations.EveryStepKeepsTheInvariant := by
  unfold Obligations.EveryStepKeepsTheInvariant
  intro s t hs h
  rcases (step_next_cases h).2 with ⟨-, rfl⟩ | ⟨i, rest, hexec⟩
  · exact hs
  · exact (exec_effect hexec).2.keeps_inv { hs with }

/-- Settles O36, one clause for each element; no fault stands before an instruction with a next state (R125). -/
theorem writersOfEachElement : Obligations.WritersOfEachElement := by
  unfold Obligations.WritersOfEachElement
  intro i s t h
  obtain ⟨hlive, heff⟩ := exec_effect h
  exact ⟨heff.crcReg_writers.resolve_left, heff.buf_writers.resolve_left, heff.lastStatus_writers.resolve_left,
    by simp [hlive], heff.hist_prefix, heff.params_eq, heff.inputs_eq⟩

/-- Settles O37: the change an instruction makes does not depend on HIST, and it only appends to it. -/
theorem historyIsNeverRead : Obligations.HistoryIsNeverRead := by
  unfold Obligations.HistoryIsNeverRead
  intro i s h
  have hsame := exec_sameChange i s s.crcReg (h ++ s.hist)
  exact (mapNext_id _).symm.trans (hsame.mapNext_eq fun c => c.apply_hist_append s h)

/-- Settles O38: the change an instruction makes does not depend on CRC_REG, and apart from CRC_REG a change leaves the
two states alike. -/
theorem crcRegisterIsNeverRead : Obligations.CrcRegisterIsNeverRead := by
  unfold Obligations.CrcRegisterIsNeverRead
  intro i s v
  exact (exec_sameChange i s v s.hist).mapNext_eq fun _ => rfl

/-- Settles O43: nothing is in flight, on record, in the buffer or faulted. -/
theorem resetSatisfiesTheInvariant : Obligations.ResetSatisfiesTheInvariant where
  params := by decide
  canonical := reset_buf_wf
  inBuffer := by simp [State.reset]
  xferInRange := by simp [State.XferInRange, State.reset]
  histBalanced := rfl
  loanKept := by simp [State.LoanKept, State.reset]
  recordsOk := by simp [State.reset]
  oneFault := by decide

end Sys2Proof.Machine
end

section
/-! What can change a cell of BUF while a transfer is in flight, from the cases of `Effect` (20_memory.md R43, R47). -/

namespace Sys2Proof.Machine

/-- STAGE, a framing request and RESET write the buffer only on a free block (R87, R141); of the completions only a
read's does (R43, R126). -/
theorem Effect.buf_kept_or_idle_or_readCompletion {i : Instr} {s t : State} (h : Effect i s t) :
    t.buf = s.buf ∨ s.xfer = .idle ∨ ∃ m st data, s.xfer = .read m ∧ i = .complete st data := by
  cases h with
  | staged _ _ idle => exact .inr (.inl idle)
  | sent _ _ _ _ _ _ _ idle => exact .inr (.inl idle)
  | reset idle => exact .inr (.inl idle)
  | readDone m data _ inFlight => exact .inr (.inr ⟨m, .ok, data, inFlight, rfl⟩)
  | readFailed m st data inFlight => exact .inr (.inr ⟨m, st, data, inFlight, rfl⟩)
  | _ => exact .inl rfl

end Sys2Proof.Machine
end

section
/-! The obligation of 20_memory.md, from the lemma above. -/

namespace Sys2Proof.Machine

/-- Settles O35: with a transfer in flight, the cases of `Effect` that change BUF leave only a read's completion. -/
theorem onLoanOnlyAReadCompletionWrites : Obligations.OnLoanOnlyAReadCompletionWrites := by
  unfold Obligations.OnLoanOnlyAReadCompletionWrites
  intro i s t hloan h hne
  exact ((exec_effect h).2.buf_kept_or_idle_or_readCompletion.resolve_left hne).resolve_left hloan

end Sys2Proof.Machine
end

section
/-! The decoder and the encoder row by row, and that each inverts the other: `decode_encode` and, over every byte
sequence, `decodeHost_reading` (30_encoding.md R50, R56, R58, R59, R61 to R64). -/

namespace Sys2Proof

/-! ## The fields of an encoding -/

/-- An operand that fits its byte is read back as itself (R63). -/
theorem toNat_ofNat_of_fitsByte {n : Nat} (h : fitsByte n = true) : (BitVec.ofNat 8 n).toNat = n := by
  rw [BitVec.toNat_ofNat, Nat.mod_eq_of_lt (of_decide_eq_true h)]

/-- The zone bits pass through param1 (R56). -/
theorem zone_packParam1 (zone : BitVec 7) (size : AccessSize) : (packParam1 zone size).extractLsb' 0 7 = zone := by
  apply BitVec.eq_of_getLsbD_eq
  intro k hk
  rw [packParam1, BitVec.getLsbD_extractLsb', Nat.zero_add, BitVec.getLsbD_append]
  simp [hk]

/-- Bit 7 of param1 says the access size (R56). -/
theorem sizeOfParam1_packParam1 (zone : BitVec 7) (size : AccessSize) :
    sizeOfParam1 (packParam1 zone size) = size := by
  rw [sizeOfParam1, packParam1, BitVec.getLsbD_append]
  cases size <;> rfl

theorem statusOfCode_statusCode (st : Status) : statusOfCode (statusCode st) = some st := by cases st <;> rfl

/-- A code past the four of R64 is no status. -/
theorem statusOfCode_of_four_le {code : Byte} (h : 0x04 ≤ code) : statusOfCode code = none := by
  have hnat : 4 ≤ code.toNat := h
  fun_cases statusOfCode code
  case case5 => rfl
  all_goals omega

/-! ## The commands a header names (R58, R59) -/

theorem namedCommand_read (p1 : Byte) (addr : Half) :
    namedCommand Config.opRead p1 addr = .readCmd (p1.extractLsb' 0 7) (sizeOfParam1 p1) addr := rfl

theorem namedCommand_write (p1 : Byte) (addr : Half) :
    namedCommand Config.opWrite p1 addr = .writeCmd (p1.extractLsb' 0 7) (sizeOfParam1 p1) addr := rfl

theorem namedCommand_genkeyNew (slot : Half) :
    namedCommand Config.opGenkey Config.genkeyNewMode slot = .genkeyNew slot := rfl

/-! ## The rows of the decoders -/

theorem decodeHost_status (rest : List Byte) : decodeHost (0x08 :: rest) = .ok (.status, rest) := rfl

theorem decodeHost_reset (rest : List Byte) : decodeHost (0x09 :: rest) = .ok (.reset, rest) := rfl

/-- The selectors of R62 are rejected whatever follows them. -/
theorem decodeHost_reserved {sel : Byte} (h : sel = 0x00 ∨ 0x0A ≤ sel) (ops : List Byte) :
    decodeHost (sel :: ops) = .error (.reservedSelector sel) := by
  have hnat : ¬ (1 ≤ sel.toNat ∧ sel.toNat ≤ 9) := by bv_omega
  unfold decodeHost
  dsimp only
  split
  case h_10 => rw [if_neg hnat]
  all_goals omega

/-- Frame bytes 2 to 5 are read as the command their header names (R50, R54). -/
theorem decodeCommand_commandHeader (op p1 : Byte) (p2 : Half) (rest : List Byte) :
    decodeCommand (commandHeader op p1 p2 ++ rest) = .ok (namedCommand op p1 p2, rest) := by
  have hrow : decodeCommand (commandHeader op p1 p2 ++ rest) =
      .ok (namedCommand op p1 (halfOf (loByte p2) (hiByte p2)), rest) := rfl
  rw [hrow, halfOf_bytes]

theorem decodeCommand_short {bytes : List Byte} (h : bytes.length < 4) :
    decodeCommand bytes = .error (.truncated .cmdFrame) := by
  fun_cases decodeCommand bytes
  case case1 =>
    simp only [List.length_cons] at h
    omega
  case case2 => rfl

theorem decodeEvent_statusCode (st : Status) (data : List Byte) :
    decodeEvent (statusCode st :: data) = .ok (.complete st data, []) := by
  rw [decodeEvent, statusOfCode_statusCode]

theorem decodeEvent_reserved {code : Byte} (h : 0x04 ≤ code) (data : List Byte) :
    decodeEvent (code :: data) = .error (.reservedStatus code) := by
  rw [decodeEvent, statusOfCode_of_four_le h]

/-! ## Decoding an encoding -/

theorem decode_encode {i : Instr} (h : wellFormed i = true) {after : List Byte}
    (hevent : (encode i).format = .event → after = []) :
    decode ⟨(encode i).format, (encode i).bytes ++ after⟩ = .ok (i, after) := by
  cases i with
  | crc16 data => exact decodeHost_crc16 (toNat_ofNat_of_fitsByte h).symm after
  | stage idx b => exact (decodeHost_stage _ b after).trans (by rw [toNat_ofNat_of_fitsByte h])
  | fetch idx => exact (decodeHost_fetch _ after).trans (by rw [toNat_ofNat_of_fitsByte h])
  | sendCommand op p1 p2 n =>
    exact (decodeHost_sendCommand op p1 _ _ _ after).trans (by rw [halfOf_bytes, toNat_ofNat_of_fitsByte h])
  | read zone addr len =>
    exact (decodeHost_read zone _ _ _ after).trans (by rw [halfOf_bytes, toNat_ofNat_of_fitsByte h])
  | write zone addr len =>
    exact (decodeHost_write zone _ _ _ after).trans (by rw [halfOf_bytes, toNat_ofNat_of_fitsByte h])
  | recv m => exact (decodeHost_recv _ after).trans (by rw [toNat_ofNat_of_fitsByte h])
  | status => exact decodeHost_status after
  | reset => exact decodeHost_reset after
  | readCmd zone size addr =>
    exact (decodeCommand_commandHeader _ _ _ after).trans
      (by rw [namedCommand_read, zone_packParam1, sizeOfParam1_packParam1])
  | writeCmd zone size addr =>
    exact (decodeCommand_commandHeader _ _ _ after).trans
      (by rw [namedCommand_write, zone_packParam1, sizeOfParam1_packParam1])
  | lockConfig => exact decodeCommand_commandHeader Config.opLock Config.lockConfigMode 0 after
  | lockDataOtp => exact decodeCommand_commandHeader Config.opLock Config.lockDataOtpMode 0 after
  | lockSlot0 => exact decodeCommand_commandHeader Config.opLock Config.lockSlot0Mode 0 after
  | genkeyNew slot =>
    exact (decodeCommand_commandHeader _ _ _ after).trans (by rw [namedCommand_genkeyNew])
  | random => exact decodeCommand_commandHeader Config.opRandom 0x00 0 after
  | complete st data =>
    rw [hevent rfl, List.append_nil]
    exact decodeEvent_statusCode st data

theorem decodeHost_encode {i : Instr} (h : wellFormed i = true) (hf : (encode i).format = .host) (after : List Byte) :
    decodeHost ((encode i).bytes ++ after) = .ok (i, after) := by
  have hd := decode_encode h (after := after) (by simp [hf])
  rwa [hf] at hd

/-! ## Everything the decoder of host requests can answer -/

/-- The answers to a byte sequence: a request read off its own encoding, too few bytes, or a reserved selector (R62). -/
inductive HostReading : List Byte → Except DecodeError (Instr × List Byte) → Prop
  | request (i : Instr) (after : List Byte) (wf : wellFormed i = true) (host : (encode i).format = .host) :
      HostReading ((encode i).bytes ++ after) (.ok (i, after))
  | short (bytes : List Byte) : HostReading bytes (.error (.truncated .host))
  | reserved (sel : Byte) (ops : List Byte) (h : sel = 0x00 ∨ 0x0A ≤ sel) :
      HostReading (sel :: ops) (.error (.reservedSelector sel))

/-- A request whose encoding is a byte sequence is a reading of it. -/
theorem HostReading.of_bytes {i : Instr} {bytes after : List Byte} (wf : wellFormed i = true)
    (host : (encode i).format = .host) (hb : bytes = (encode i).bytes ++ after) :
    HostReading bytes (.ok (i, after)) := hb ▸ .request i after wf host

theorem decodeHost_reading (bytes : List Byte) : HostReading bytes (decodeHost bytes) := by
  have hfits (b : Byte) : fitsByte b.toNat = true := decide_eq_true b.isLt
  fun_cases decodeHost bytes
  case case1 => exact .short _
  case case2 sel k rest hsel hk =>
    obtain rfl : sel = 0x01 := BitVec.eq_of_toNat_eq hsel
    have hlen : (rest.take k.toNat).length = k.toNat := List.length_take_of_le hk
    exact .of_bytes (by simpa only [wellFormed, hlen] using hfits k) rfl (by simp [encode, hlen])
  case case3 => exact .short _
  case case4 sel idx b rest hsel =>
    obtain rfl : sel = 0x02 := BitVec.eq_of_toNat_eq hsel
    exact .of_bytes (hfits idx) rfl (by simp [encode])
  case case5 sel idx rest hsel =>
    obtain rfl : sel = 0x03 := BitVec.eq_of_toNat_eq hsel
    exact .of_bytes (hfits idx) rfl (by simp [encode])
  case case6 sel op p1 lo hi n rest hsel =>
    obtain rfl : sel = 0x04 := BitVec.eq_of_toNat_eq hsel
    exact .of_bytes (hfits n) rfl (by simp [encode])
  case case7 sel zone lo hi len rest hsel =>
    obtain rfl : sel = 0x05 := BitVec.eq_of_toNat_eq hsel
    exact .of_bytes (hfits len) rfl (by simp [encode])
  case case8 sel zone lo hi len rest hsel =>
    obtain rfl : sel = 0x06 := BitVec.eq_of_toNat_eq hsel
    exact .of_bytes (hfits len) rfl (by simp [encode])
  case case9 sel m rest hsel =>
    obtain rfl : sel = 0x07 := BitVec.eq_of_toNat_eq hsel
    exact .of_bytes (hfits m) rfl (by simp [encode])
  case case10 sel rest hsel =>
    obtain rfl : sel = 0x08 := BitVec.eq_of_toNat_eq hsel
    exact .request .status rest rfl rfl
  case case11 sel rest hsel =>
    obtain rfl : sel = 0x09 := BitVec.eq_of_toNat_eq hsel
    exact .request .reset rest rfl rfl
  case case12 => exact .short _
  case case13 sel ops _ _ hsel _ _ _ _ _ _ _ => exact .reserved sel ops (by bv_omega)

/-- A reading is settled by the bytes it takes: bytes that more bytes would complete to one whole request are read as
too few. -/
theorem decodeHost_of_cut {bytes missing : List Byte} {i : Instr} (hne : missing ≠ [])
    (hfull : decodeHost (bytes ++ missing) = .ok (i, [])) : decodeHost bytes = .error (.truncated .host) := by
  have hreading := decodeHost_reading bytes
  generalize decodeHost bytes = reading at hreading ⊢
  cases hreading with
  | request j after wf host =>
    rw [List.append_assoc, decodeHost_encode wf host] at hfull
    injection hfull with hpair
    have hnil : after ++ missing = [] := (Prod.mk.inj hpair).2
    exact absurd (List.append_eq_nil_iff.1 hnil).2 hne
  | short => rfl
  | reserved sel ops hsel =>
    rw [List.cons_append, decodeHost_reserved hsel] at hfull
    cases hfull

/-- A host request's encoding cut short is too short (R62). -/
theorem decodeHost_take_encode {i : Instr} {n : Nat} (h : wellFormed i = true) (hf : (encode i).format = .host)
    (hn : n < (encode i).bytes.length) :
    decodeHost ((encode i).bytes.take n) = .error (.truncated .host) := by
  have hfull : decodeHost ((encode i).bytes.take n ++ (encode i).bytes.drop n) = .ok (i, []) := by
    simpa using decodeHost_encode h hf []
  exact decodeHost_of_cut (by simpa using hn) hfull

/-! ## The words of the opcode table (log 8) -/

/-- A word of a key's width is the command key whose param2 is zero. -/
theorem decodeTableWord_commandKey {w : Nat} (h : w < 0x10000) :
    decodeTableWord 16 w = some (namedCommand (BitVec.ofNat 8 (w / 0x100)) (BitVec.ofNat 8 w) 0) := by
  have hrow : decodeTableWord 16 w = some (namedCommand (BitVec.ofNat 8 (w / 0x100)) (BitVec.ofNat 8 w)
      (halfOf (BitVec.ofNat 8 (w / 0x10000)) (BitVec.ofNat 8 (w / 0x1000000)))) := rfl
  rw [hrow, show w / 0x10000 = 0 by omega, show w / 0x1000000 = 0 by omega]
  rfl

/-- The mask of a command's opcode leaves frame[2] of the key. -/
theorem div_of_and_opcodeMask {w value : Nat} (h : w < 0x10000) (hw : w &&& 0xFF00 = value) :
    w / 0x100 = value / 0x100 := by
  have hshift : (w &&& 0xFF00) >>> 8 = w >>> 8 &&& 0xFF := Nat.shiftRight_and_distrib
  have hhigh : w >>> 8 &&& 0xFF = w >>> 8 := Nat.and_two_pow_sub_one_of_lt_two_pow (n := 8) (by
    rw [Nat.shiftRight_eq_div_pow]; omega)
  rw [hw, hhigh, Nat.shiftRight_eq_div_pow, Nat.shiftRight_eq_div_pow] at hshift
  exact hshift.symm

/-- The rows of host requests are matched by their value alone, which is read as the row's request. -/
theorem hostRow_word {row : OpcodeRow} (hrow : row ∈ opcodeRows) (hf : row.format = .host) :
    row.mask = 0xFF ∧ (decodeTableWord 8 row.value).map mnemonic = some row.mnemonic := by
  revert row
  decide

/-- The rows of wire commands: READ.CMD and WRITE.CMD are matched by their opcode, the others by their value alone. -/
theorem commandRow_word {row : OpcodeRow} (hrow : row ∈ opcodeRows) (hf : row.format = .cmdFrame) :
    (row.mask = 0xFFFF ∧ (decodeTableWord 16 row.value).map mnemonic = some row.mnemonic) ∨
    (row.mask = 0xFF00 ∧ row.value / 0x100 = Config.opRead.toNat ∧ row.mnemonic = "READ.CMD") ∨
    (row.mask = 0xFF00 ∧ row.value / 0x100 = Config.opWrite.toNat ∧ row.mnemonic = "WRITE.CMD") := by
  revert row
  decide

end Sys2Proof

namespace Sys2Proof.Machine

/-! ## A frame's CRC span, bits of param1, a step on a packet that is no instruction -/

/-- The CRC span is frame bytes 1 to 5+n (R52). -/
theorem drop_take_commandFrame (w op p1 : Byte) (p2 : Half) (payload : List Byte) :
    ((commandFrame w op p1 p2 payload).take (payload.length + 6)).drop 1 = crcSpan op p1 p2 payload := by
  have hlen : payload.length + 6 = (w :: crcSpan op p1 p2 payload).length := by simp
  rw [hlen, show commandFrame w op p1 p2 payload =
    (w :: crcSpan op p1 p2 payload) ++ le16 (crc16 (crcSpan op p1 p2 payload)) from rfl, List.take_left]
  rfl

theorem step_of_undecodable {s : State} {p : Packet} {e : DecodeError} {rest : List Input}
    (h : s.faults = []) (hin : s.inputs = .packet p :: rest) (hd : decode p = .error e) :
    step s = .refused (.undecodable e) := by
  simp only [step, fetch, h, hin, hd]

end Sys2Proof.Machine
end

section
/-! The obligations of 30_encoding.md, each from the lemmas above. -/

namespace Sys2Proof.Machine

/-- Settles O45: each row's encoding is read back as its row. -/
theorem decodeEncodeRoundTrip : Obligations.DecodeEncodeRoundTrip := by
  unfold Obligations.DecodeEncodeRoundTrip
  exact fun i after h hevent => decode_encode h hevent

/-- Settles O46: of the readings of a byte sequence only the first answers an instruction. -/
theorem everyHostRequestHasOneEncoding : Obligations.EveryHostRequestHasOneEncoding := by
  unfold Obligations.EveryHostRequestHasOneEncoding
  intro bytes after i h
  have hreading := decodeHost_reading bytes
  rw [show decodeHost bytes = .ok (i, after) from h] at hreading
  cases hreading with
  | request _ _ wf host => exact ⟨wf, by rw [← host], rfl⟩

/-- Settles O19: the CRC is that of the span, and the checker accepts it (`frameOk_commandFrame`). -/
theorem commandFramesAreWellFormed : Obligations.CommandFramesAreWellFormed := by
  unfold Obligations.CommandFramesAreWellFormed
  intro w op p1 p2 payload h
  refine ⟨crc16 (crcSpan op p1 p2 payload), ?_, ?_, length_commandFrame .., ?_, frameOk_commandFrame h ..⟩
  · rw [← loByte_eq, ← hiByte_eq, ← loByte_eq, ← hiByte_eq]
    exact commandFrame_eq ..
  · rw [drop_take_commandFrame]
  · rw [length_commandFrame]
    exact congrArg (· + 1) (toNat_lengthByte h)

/-- Settles O47: a reserved selector is rejected whatever follows it, and an encoding cut short is too short. -/
theorem reservedAndShortRequestsAreRefused : Obligations.ReservedAndShortRequestsAreRefused := by
  unfold Obligations.ReservedAndShortRequestsAreRefused
  exact ⟨fun s sel ops rest h hin hsel => step_of_undecodable h hin (decodeHost_reserved hsel ops),
    fun s i n rest h hwf hf hn hin => step_of_undecodable h hin (decodeHost_take_encode hwf hf hn)⟩

/-- Settles O48: a full mask leaves the row's value alone, and READ.CMD and WRITE.CMD go by the opcode. -/
theorem tableWordsDecodeToTheirRows : Obligations.TableWordsDecodeToTheirRows := by
  unfold Obligations.TableWordsDecodeToTheirRows
  intro row hrow w
  constructor
  · intro hf hlt hw
    obtain ⟨hmask, hread⟩ := hostRow_word hrow hf
    rw [hmask, Nat.and_two_pow_sub_one_of_lt_two_pow (n := 8) hlt] at hw
    rw [hw]
    exact Option.map_eq_some_iff.1 hread
  · intro hf hlt hw
    obtain ⟨hmask, hread⟩ | ⟨hmask, hop, hname⟩ | ⟨hmask, hop, hname⟩ := commandRow_word hrow hf
    · rw [hmask, Nat.and_two_pow_sub_one_of_lt_two_pow (n := 16) hlt] at hw
      rw [hw]
      exact Option.map_eq_some_iff.1 hread
    · refine ⟨_, decodeTableWord_commandKey hlt, ?_⟩
      rw [div_of_and_opcodeMask hlt (hmask ▸ hw), hop, hname]
      rfl
    · refine ⟨_, decodeTableWord_commandKey hlt, ?_⟩
      rw [div_of_and_opcodeMask hlt (hmask ▸ hw), hop, hname]
      rfl

/-- Settles O51, by the rejections of the two decoders. -/
theorem malformedCommandsAndCompletionsAreRefused : Obligations.MalformedCommandsAndCompletionsAreRefused := by
  unfold Obligations.MalformedCommandsAndCompletionsAreRefused
  intro s rest h
  exact ⟨fun bytes hlen hin => step_of_undecodable h hin (decodeCommand_short hlen),
    fun hin => step_of_undecodable h hin rfl,
    fun code data hcode hin => step_of_undecodable h hin (decodeEvent_reserved hcode data)⟩

/-- Settles O12: 0x7F has bits 6 to 0, and 0x80 has bit 7 alone. -/
theorem zoneBitsPassThrough : Obligations.ZoneBitsPassThrough := by
  unfold Obligations.ZoneBitsPassThrough
  intro zone len
  have hmasks : ∀ k < 7, (0x7F#8).getLsbD k = true ∧ (0x80#8).getLsbD k = false := by decide
  constructor
  · intro k hk
    obtain ⟨hzone, hsize⟩ := hmasks k hk
    by_cases hlen : len = 32 <;> simp [param1, hlen, hzone, hsize]
  · by_cases hlen : len = 32 <;> simp [param1, hlen]

/-- Settles O49: each word is what its decoder's row reads. -/
theorem wordsFromTheSpecDecode : Obligations.WordsFromTheSpecDecode := by
  unfold Obligations.WordsFromTheSpecDecode
  exact ⟨decodeHost_crc16 (k := 0x02) (data := [0x04, 0x11]) rfl [], decodeHost_stage 0x06 0x83 [],
    decodeHost_sendCommand 0xAA 0x55 0x34 0x12 0x03 [], decodeHost_write 0x00 0x18 0x00 0x04 [],
    decodeCommand_commandHeader Config.opRead 0x80 0x0010 [],
    decodeCommand_commandHeader Config.opLock Config.lockDataOtpMode 0 [], decodeEvent_statusCode .dataNak []⟩

end Sys2Proof.Machine
end

section
/-! The CRC unit as a bit-serial one (40_crc.md R74), its linearity over whole sequences (R75), and that no CRC step
loses what the register held. -/

namespace Sys2Proof.Machine

/-! ## One CRC_BIT step per data bit -/

/-- The data bits of a byte in the order CRC_BYTE takes them (R71). -/
def byteBits (b : Byte) : List Bool := (List.range 8).map fun k => b.getLsbD k

theorem crcByte_eq_foldl (r : Half) (b : Byte) : crcByte r b = (byteBits b).foldl crcBit r := rfl

theorem crcFrom_eq_foldl (r : Half) (s : List Byte) : crcFrom r s = (s.flatMap byteBits).foldl crcBit r := by
  induction s generalizing r with
  | nil => rfl
  | cons b s ih => rw [crcFrom_cons, ih, crcByte_eq_foldl, List.flatMap_cons, List.foldl_append]

theorem crcBit_eq_ite (r : Half) (d : Bool) :
    crcBit r d = if d = r.getLsbD 15 then r <<< 1 else (r <<< 1) ^^^ 0x8005 := by
  by_cases h : d = r.getLsbD 15 <;> simp [crcBit, h, Config.crcPoly]

/-! ## Whole sequences -/

theorem crcFrom_append (r : Half) (s t : List Byte) : crcFrom r (s ++ t) = crcFrom (crcFrom r s) t :=
  List.foldl_append

theorem crcFrom_xor {s t : List Byte} (h : s.length = t.length) (r q : Half) :
    crcFrom (r ^^^ q) (List.zipWith (· ^^^ ·) s t) = crcFrom r s ^^^ crcFrom q t := by
  induction s generalizing t r q with
  | nil => rw [List.eq_nil_of_length_eq_zero h.symm]; rfl
  | cons b s ih =>
    obtain ⟨c, t, rfl⟩ := List.exists_cons_of_length_eq_add_one h.symm
    rw [List.zipWith_cons_cons, crcFrom_cons, crcByte_xor, ih (Nat.succ.inj h), crcFrom_cons, crcFrom_cons]

theorem crcByte_zero_zero : crcByte 0x0000 0x00 = 0x0000 := by decide

theorem crc16_zero_cons (s : List Byte) : crc16 (0x00 :: s) = crc16 s :=
  congrArg (crcFrom · s) crcByte_zero_zero

theorem crc16_replicate_zero (n : Nat) : crc16 (List.replicate n 0x00) = 0x0000 := by
  induction n with
  | zero => rfl
  | succ n ih => rw [List.replicate_succ, crc16_zero_cons, ih]

/-! ## Injectivity -/

/-- Bit 0 of the polynomial is set, so the step leaves in bit 0 whether it added the polynomial. -/
theorem getLsbD_zero_crcBit (r : Half) (d : Bool) : (crcBit r d).getLsbD 0 = (d ^^ r.getLsbD 15) := by
  by_cases h : d = r.getLsbD 15
  · simp [crcBit, h]
  · rw [crcBit, if_pos (by simpa using h), Bool.eq_not_of_ne h]
    simp [Config.crcPoly]

/-- Bit 0 of the result tells the top bit that the shift loses. -/
theorem crcBit_injective (d : Bool) : Function.Injective (crcBit · d) := by
  intro r q (h : crcBit r d = crcBit q d)
  have htop : r.getLsbD 15 = q.getLsbD 15 := by
    simpa only [getLsbD_zero_crcBit, Bool.xor_right_inj] using congrArg (BitVec.getLsbD · 0) h
  have hshift : r <<< 1 = q <<< 1 := by
    rw [crcBit, crcBit, htop] at h
    split at h
    · exact (BitVec.xor_left_inj _).1 h
    · exact h
  refine BitVec.eq_of_getElem_eq fun k hk => ?_
  obtain rfl | hlt : k = 15 ∨ k + 1 < 16 := by omega
  · exact htop
  · simpa [hlt] using congrArg (BitVec.getLsbD · (k + 1)) hshift

theorem foldl_crcBit_injective (ds : List Bool) : Function.Injective (ds.foldl crcBit ·) := by
  induction ds with
  | nil => exact Function.injective_id
  | cons d ds ih => exact ih.comp (crcBit_injective d)

theorem crcFrom_injective (s : List Byte) : Function.Injective (crcFrom · s) := by
  simpa only [crcFrom_eq_foldl] using foldl_crcBit_injective (s.flatMap byteBits)

theorem eq_zero_of_crcByte_zero : ∀ b : Byte, crcByte 0x0000 b = 0x0000 → b = 0x00 := by decide

/-- By linearity the two results differ by the CRC of the bytes' difference. -/
theorem crcByte_right_injective (r : Half) : Function.Injective (crcByte r) := by
  intro b c h
  have hdiff : crcByte 0x0000 (b ^^^ c) = 0x0000 := by simpa [h] using crcByte_xor r r b c
  exact BitVec.xor_eq_zero_iff.1 (eq_zero_of_crcByte_zero _ hdiff)

end Sys2Proof.Machine
end

section
/-! The obligations of 40_crc.md, each from the lemmas above. -/

namespace Sys2Proof.Machine

/-- Settles O2: the loops over the bytes and over a byte's bits are one loop over all bits (`crcFrom_eq_foldl`). -/
theorem crcIsBitSerial : Obligations.CrcIsBitSerial := by
  unfold Obligations.CrcIsBitSerial
  intro s
  rw [crc16, crcFrom_eq_foldl, show crcBit = _ from funext₂ crcBit_eq_ite]
  rfl

/-- Settles O3: the XOR law is `crcFrom_xor` with both registers at 0x0000. -/
theorem crcLaws : Obligations.CrcLaws := by
  unfold Obligations.CrcLaws
  exact ⟨rfl, crc16_zero_cons, fun _ _ h => crcFrom_xor h Config.crcInit Config.crcInit,
    crcFrom_append Config.crcInit, fun _ _ h => congrArg crc16 h⟩

/-- Settles O4: the different bytes leave different registers, and the bytes after them keep these apart. -/
theorem crcDetectsOneWrongByte : Obligations.CrcDetectsOneWrongByte := by
  unfold Obligations.CrcDetectsOneWrongByte
  intro before after b c hbc h
  have hafter : crcFrom (crc16 before) (b :: after) = crcFrom (crc16 before) (c :: after) :=
    calc crcFrom (crc16 before) (b :: after) = crc16 (before ++ b :: after) := (crcFrom_append ..).symm
      _ = crc16 (before ++ c :: after) := h
      _ = crcFrom (crc16 before) (c :: after) := crcFrom_append ..
  exact hbc (crcByte_right_injective (crc16 before) (crcFrom_injective after hafter))

/-- Settles O1: the values by evaluation, the zero sequences of every length by `crc16_replicate_zero`. -/
theorem crcReferenceVectors : Obligations.CrcReferenceVectors := by
  unfold Obligations.CrcReferenceVectors
  exact ⟨by decide, by decide, by decide, by decide, by decide, crcByte_zero_zero, by decide, by decide, by decide,
    rfl, crc16_replicate_zero, by decide +kernel⟩

/-- Settles O5: without a fault the request is its one answer, which no test of XFER guards. -/
theorem crc16AnswersAndKeepsItsResult : Obligations.Crc16AnswersAndKeepsItsResult := by
  unfold Obligations.Crc16AnswersAndKeepsItsResult
  intro s data h
  rw [exec, execCrc16, live_of_nil h]
  rfl

end Sys2Proof.Machine
end

section
/-! The requests of the framer, each by what stands in its way: a transfer in flight, a bad length, the buffer's bounds,
an unstaged cell; and what a framing instruction leaves for the same request and for FETCH (41_framer.md R80 to R96). -/

namespace Sys2Proof.Machine

variable {i : Instr} {s t : State}

/-! ## Lengths (R83, R88) -/

theorem goodLength_eq_true {len : Nat} (h : len = 4 ∨ len = 32) : goodLength len = true := by
  simpa using h

theorem goodLength_eq_false {len : Nat} (h4 : len ≠ 4) (h32 : len ≠ 32) : goodLength len = false := by
  simp [h4, h32]

/-- The smallest buffer R8 allows takes the frame of any payload of up to 56 bytes. -/
theorem State.fits_of_valid (h : s.params.Valid) {n : Nat} (hn : n ≤ 56) : s.Fits n := by
  simp only [Params.Valid] at h
  exact ⟨by omega, by omega⟩

theorem State.fits_of_goodLength (h : s.params.Valid) {len : Nat} (hlen : len = 4 ∨ len = 32) : s.Fits len :=
  State.fits_of_valid h (by omega)

/-! ## While a transfer is in flight (R87, R89, R141) -/

/-- A buffer request is turned away before any check but the one of its length. -/
theorem exec_of_onLoan (h : s.OnLoan) (hu : usesBuffer i = true) (hz : sizeAccepted i = true) :
    exec i s = .next (addReply (.result .busy) s) := by
  obtain ⟨hlive, hloan⟩ := h
  cases hf : framesCommand i with
  | true =>
    obtain ⟨op, p1, p2, n, -, -, he⟩ := exec_framing hf hz
    rw [he, live_of_nil hlive, sendFrame_busy hloan, answer]
  | false =>
    cases i with
    | stage => rw [exec, execStage, live_of_nil hlive, whenFree_of_busy hloan, answer]
    | fetch => rw [exec, execFetch, live_of_nil hlive, whenFree_of_busy hloan, answer]
    | recv => rw [exec, execRecv, live_of_nil hlive, whenFree_of_busy hloan, answer]
    | crc16 | status | reset | complete => cases hu
    | _ => cases hf

/-- Whichever the run chooses, a bad length on a busy block is answered one of the two errors. -/
theorem exec_badSize_of_onLoan (h : s.OnLoan) (hz : sizeAccepted i = false) :
    ∃ v : Result, (v = .sizeError ∨ v = .busy) ∧
      exec i s = .next (addReply (.result v) { s with choices := s.choices + 1 }) := by
  refine ⟨if Config.sizeErrorFirst s.choices then .sizeError else .busy, ?_, ?_⟩
  · split
    · exact .inl rfl
    · exact .inr rfl
  · rw [exec_badSize hz, live_of_nil h.1, if_neg h.2, answer]

theorem exec_reset_of_onLoan (h : s.OnLoan) : exec .reset s = .refused .resetWhileBusy := by
  rw [exec, execReset, live_of_nil h.1, if_pos (busy_eq_true.2 h.2)]

/-! ## On a free block: STAGE, FETCH, RECV and a bad length (R80, R81, R86, R88) -/

theorem exec_badSize_of_free (h : s.Free) (hz : sizeAccepted i = false) :
    exec i s = .next (addReply (.result .sizeError) s) := by
  rw [exec_badSize hz, live_of_nil h.1, if_pos h.2, answer]

theorem exec_stage_past (h : s.Free) {idx : Nat} (hi : s.params.bufSize ≤ idx) (b : Byte) :
    exec (.stage idx b) s = .next { s with faults := [(.bufRange, .stage idx b)] } := by
  rw [exec, execStage, live_of_nil h.1, whenFree_of_idle h.2, bufWrite_past hi, orRaise_error, raise_of_nil h.1]

theorem exec_fetch_of_cell (h : s.Free) {idx : Nat} {b : Byte} (hi : idx < s.params.bufSize)
    (hb : s.buf.read idx = some b) : exec (.fetch idx) s = .next (addReply (.result (.okByte b)) s) := by
  rw [exec, execFetch, live_of_nil h.1, whenFree_of_idle h.2, bufRead_ok.2 ⟨hi, hb⟩, orRaise_ok, answer]

theorem exec_fetch_past (h : s.Free) {idx : Nat} (hi : s.params.bufSize ≤ idx) :
    exec (.fetch idx) s = .next { s with faults := [(.bufRange, .fetch idx)] } := by
  rw [exec, execFetch, live_of_nil h.1, whenFree_of_idle h.2, bufRead_past hi, orRaise_error, raise_of_nil h.1]

theorem exec_fetch_unwritten (h : s.Free) {idx : Nat} (hi : idx < s.params.bufSize) (hb : s.buf.read idx = none) :
    exec (.fetch idx) s = .next { s with faults := [(.unwritten, .fetch idx)] } := by
  rw [exec, execFetch, live_of_nil h.1, whenFree_of_idle h.2, bufRead_unwritten hi hb, orRaise_error, raise_of_nil h.1]

theorem exec_recv_inRange (h : s.Free) {m : Nat} (lo : 1 ≤ m) (hi : m ≤ s.params.bufSize) :
    exec (.recv m) s = .next (addReply (.result .ok) (issueRead m s)) := by
  rw [exec, execRecv, live_of_nil h.1, whenFree_of_idle h.2, if_neg (by omega), answer]

theorem exec_recv_outOfRange (h : s.Free) {m : Nat} (hm : m < 1 ∨ s.params.bufSize < m) :
    exec (.recv m) s = .next { s with faults := [(.recvRange, .recv m)] } := by
  rw [exec, execRecv, live_of_nil h.1, whenFree_of_idle h.2, if_pos hm, raise_of_nil h.1]

/-! ## The command an instruction asks for (R67) -/

/-- In every state the instruction is the framing of one command, with n payload bytes. -/
def AsksCommand (i : Instr) (op p1 : Byte) (p2 : Half) (n : Nat) : Prop :=
  ∀ s, exec i s = live s (sendFrame (requestOf i) op p1 p2 n s)

theorem asksCommand_sendCommand (op p1 : Byte) (p2 : Half) (n : Nat) :
    AsksCommand (.sendCommand op p1 p2 n) op p1 p2 n := fun _ => rfl

theorem asksCommand_read {len : Nat} (h : len = 4 ∨ len = 32) (zone : Byte) (addr : Half) :
    AsksCommand (.read zone addr len) Config.opRead (param1 zone len) addr 0 := by
  intro s
  rw [exec, execRead, readRequest, whenSized_of_good h, requestOf]

theorem asksCommand_write {len : Nat} (h : len = 4 ∨ len = 32) (zone : Byte) (addr : Half) :
    AsksCommand (.write zone addr len) Config.opWrite (param1 zone len) addr len := by
  intro s
  rw [exec, execWrite, writeRequest, whenSized_of_good h, requestOf]

section
variable {op p1 : Byte} {p2 : Half}

theorem AsksCommand.exec_sent {payload : List Byte} (hi : AsksCommand i op p1 p2 payload.length) (h : s.Free)
    (fits : s.Fits payload.length) (staged : s.Staged payload) :
    ∃ t, exec i s = .next t ∧ Sent s op p1 p2 payload t := by
  obtain ⟨t, ht, hsent, -⟩ := sendFrame_sent h.2 fits staged (requestOf i) op p1 p2
  exact ⟨t, by rw [hi, live_of_nil h.1, ht], hsent⟩

theorem AsksCommand.exec_frameRange {n : Nat} (hi : AsksCommand i op p1 p2 n) (h : s.Free) (hn : ¬ s.Fits n) :
    exec i s = .next { s with faults := [(.frameRange, requestOf i)] } := by
  rw [hi, live_of_nil h.1, sendFrame_frameRange h.2 hn, raise_of_nil h.1]

theorem AsksCommand.exec_unwritten {n : Nat} (hi : AsksCommand i op p1 p2 n) (h : s.Free) (fits : s.Fits n)
    (hk : ∃ k, k < n ∧ s.buf.read (6 + k) = none) :
    exec i s = .next { s with faults := [(.unwritten, requestOf i)] } := by
  rw [hi, live_of_nil h.1, sendFrame_unwritten h.2 fits hk, raise_of_nil h.1]

/-! ## After the frame was sent (R92, R93) -/

theorem Sent.replies_eq {payload : List Byte} (h : Sent s op p1 p2 payload t) :
    t.replies = s.replies ++ [.result .ok] := by rw [h.2]

theorem Sent.staged {payload : List Byte} (h : Sent s op p1 p2 payload t) : t.Staged payload := by
  intro k hk
  rw [h.1, if_pos (by omega), getElem?_commandFrame, if_neg (by omega), if_pos (by omega), Nat.add_sub_cancel_left]

theorem Sent.read_frame {payload : List Byte} (h : Sent s op p1 p2 payload t) {k : Nat} {b : Byte}
    (hb : (commandFrame s.params.wordAddr op p1 p2 payload)[k]? = some b) :
    k < payload.length + 8 ∧ t.buf.read k = some b := by
  have hk : k < payload.length + 8 := by simpa using (List.getElem?_eq_some_iff.1 hb).1
  exact ⟨hk, by rw [h.1, if_pos hk, hb]⟩

end

/-- A framing instruction that put a frame on record sent the command it asks for: no other outcome appends to HIST. -/
theorem exec_sent_of_hist {frame : List Byte} (hf : framesCommand i = true) (h : exec i s = .next t)
    (hh : t.hist = s.hist ++ [.w frame]) :
    ∃ op p1 p2 payload, AsksCommand i op p1 p2 payload.length ∧ s.Fits payload.length ∧
      Sent s op p1 p2 payload t ∧ frame = commandFrame s.params.wordAddr op p1 p2 payload := by
  have hnew : t.hist ≠ s.hist := by simp [hh]
  cases hz : sizeAccepted i with
  | false =>
    rw [exec_badSize hz, live_eq_next] at h
    obtain ⟨-, h⟩ := h
    split at h <;> cases h <;> exact absurd rfl hnew
  | true =>
    obtain ⟨op, p1, p2, n, -, -, hi⟩ := exec_framing hf hz
    rw [hi, live_eq_next] at h
    obtain ⟨-, h⟩ := h
    obtain ⟨-, e⟩ | ⟨-, -, e⟩ | ⟨-, -, -, e⟩ | ⟨-, fits, payload, t', rfl, -, e, hsent, -⟩ :=
      sendFrame_cases (requestOf i) op p1 p2 n s <;> rw [e] at h <;> cases h
    · exact absurd rfl hnew
    · exact absurd rfl hnew
    · exact absurd rfl hnew
    · exact ⟨op, p1, p2, payload, hi, fits, hsent, by simpa [hsent.hist_eq, eq_comm] using hh⟩

theorem exec_complete_of_write {len : Nat} (h : s.faults = []) (hx : s.xfer = .write len) (st : Status) :
    exec (.complete st []) s = .next
      (addReply (.notify .write st) (record (.c st []) { s with lastStatus := .of st, xfer := .idle })) := by
  rw [exec, execComplete_of_write h hx, completeWrite, if_neg (by simp), finishTransfer, completionRecord_nil]

/-- What a write transfer's completion leaves of the frame sent: a free block with the buffer as it was (R42). -/
theorem Sent.after_completion {u : State} {op p1 : Byte} {p2 : Half} {payload : List Byte} {st : Status}
    (hsent : Sent s op p1 p2 payload t) (h : s.faults = []) (hc : exec (.complete st []) t = .next u) :
    u.Free ∧ u.params = s.params ∧ u.buf = t.buf := by
  have hlive : t.faults = [] := hsent.faults_eq.trans h
  rw [exec_complete_of_write hlive hsent.xfer_eq] at hc
  cases hc
  exact ⟨⟨hlive, rfl⟩, hsent.params_eq, rfl⟩

/-! ## XFER and the replies (R90, R96) -/

theorem issuesTransfer_of_framesCommand (h : framesCommand i = true) : issuesTransfer i = true := by
  cases i with
  | crc16 | stage | fetch | recv | status | reset | complete => cases h
  | _ => rfl

/-- An issue comes with OK, and without OK nothing is issued. -/
theorem Effect.issues_with_ok_or_neither (h : Effect i s t) (hi : issuesTransfer i = true) :
    (t.replies = s.replies ++ [.result .ok] ∧
      ((∃ frame, t.hist = s.hist ++ [.w frame] ∧ t.xfer = .write frame.length) ∨
       (∃ m, t.hist = s.hist ++ [.r m] ∧ t.xfer = .read m))) ∨
    (t.replies ≠ s.replies ++ [.result .ok] ∧ t.hist = s.hist ∧ t.xfer = s.xfer) := by
  cases h with
  | sent op p1 p2 payload _ _ _ _ _ _ hsent =>
    exact .inl ⟨hsent.replies_eq, .inl ⟨_, hsent.hist_eq, by rw [hsent.xfer_eq, length_commandFrame]⟩⟩
  | received m => exact .inl ⟨rfl, .inr ⟨m, rfl, rfl⟩⟩
  | raised | busy | sizeError => exact .inr ⟨by simp, rfl, rfl⟩
  | chosen v hv =>
    obtain rfl | rfl := hv <;> exact .inr ⟨by simp, rfl, rfl⟩
  | _ => cases hi

theorem Effect.xfer_movers (h : Effect i s t) :
    t.xfer = s.xfer ∨ (s.xfer = .idle ∧ issuesTransfer i = true) ∨
      (s.xfer ≠ .idle ∧ t.xfer = .idle ∧ ∃ st data, i = .complete st data) := by
  cases h with
  | sent _ _ _ _ hframes _ _ idle => exact .inr (.inl ⟨idle, issuesTransfer_of_framesCommand hframes⟩)
  | received _ idle => exact .inr (.inl ⟨idle, rfl⟩)
  | reset idle => exact .inl idle.symm
  | writeDone _ st inFlight => exact .inr (.inr ⟨by simp [inFlight], rfl, st, [], rfl⟩)
  | readDone _ data _ inFlight => exact .inr (.inr ⟨by simp [inFlight], rfl, .ok, data, rfl⟩)
  | readFailed _ st data inFlight => exact .inr (.inr ⟨by simp [inFlight], rfl, st, data, rfl⟩)
  | _ => exact .inl rfl

end Sys2Proof.Machine
end

section
/-! The obligations of 41_framer.md, each from the lemmas above. -/

namespace Sys2Proof.Machine

/-- Settles O8: the command it asks for is sent, or stopped at a limit, an unstaged cell or a transfer in flight. -/
theorem sendCommandFollowsItsRule : Obligations.SendCommandFollowsItsRule := by
  unfold Obligations.SendCommandFollowsItsRule
  intro s op p1 p2 n h
  have hasks := asksCommand_sendCommand op p1 p2 n
  refine ⟨?_, fun hx hn => hasks.exec_frameRange ⟨h, hx⟩ (by simp only [State.Fits]; omega),
    fun hx hn hb hk => hasks.exec_unwritten ⟨h, hx⟩ ⟨hn, hb⟩ hk, fun hx => exec_of_onLoan ⟨h, hx⟩ rfl rfl⟩
  rintro payload rfl hx hn hb staged
  exact hasks.exec_sent ⟨h, hx⟩ ⟨hn, hb⟩ staged

/-- Settles O9: a good length is the command without payload, a bad one goes by XFER. -/
theorem readFollowsItsRule : Obligations.ReadFollowsItsRule := by
  unfold Obligations.ReadFollowsItsRule
  intro s zone addr len valid h
  refine ⟨fun hx hlen => ?_, fun hx h4 h32 => exec_badSize_of_free ⟨h, hx⟩ (goodLength_eq_false h4 h32),
    fun hx hlen => exec_of_onLoan ⟨h, hx⟩ rfl (goodLength_eq_true hlen),
    fun hx h4 h32 => exec_badSize_of_onLoan ⟨h, hx⟩ (goodLength_eq_false h4 h32)⟩
  exact (asksCommand_read hlen zone addr).exec_sent (payload := []) ⟨h, hx⟩ (State.fits_of_valid valid (Nat.zero_le _))
    fun _ hk => absurd hk (Nat.not_lt_zero _)

/-- Settles O10: a good length is the command with the staged payload, a bad one goes by XFER. -/
theorem writeFollowsItsRule : Obligations.WriteFollowsItsRule := by
  unfold Obligations.WriteFollowsItsRule
  intro s zone addr len valid h
  refine ⟨?_, fun hx hlen hk =>
      (asksCommand_write hlen zone addr).exec_unwritten ⟨h, hx⟩ (State.fits_of_goodLength valid hlen) hk,
    fun hx h4 h32 => exec_badSize_of_free ⟨h, hx⟩ (goodLength_eq_false h4 h32),
    fun hx hlen => exec_of_onLoan ⟨h, hx⟩ rfl (goodLength_eq_true hlen),
    fun hx h4 h32 => exec_badSize_of_onLoan ⟨h, hx⟩ (goodLength_eq_false h4 h32)⟩
  rintro payload rfl hx hlen staged
  exact (asksCommand_write hlen zone addr).exec_sent ⟨h, hx⟩ (State.fits_of_goodLength valid hlen) staged

/-- Settles O11: the length is checked with XFER in view, every other check comes after it. -/
theorem sizeAndBusyPrecedence : Obligations.SizeAndBusyPrecedence := by
  unfold Obligations.SizeAndBusyPrecedence
  intro s h
  refine ⟨fun zone addr len h4 h32 hx => ?_, fun zone addr len h4 h32 hx => ?_, fun zone addr len hlen hx => ?_, ?_⟩
  · have hbad := goodLength_eq_false h4 h32
    exact ⟨exec_badSize_of_onLoan ⟨h, hx⟩ hbad, exec_badSize_of_onLoan ⟨h, hx⟩ hbad⟩
  · have hbad := goodLength_eq_false h4 h32
    exact ⟨exec_badSize_of_free ⟨h, hx⟩ hbad, exec_badSize_of_free ⟨h, hx⟩ hbad⟩
  · have hgood := goodLength_eq_true hlen
    exact ⟨exec_of_onLoan ⟨h, hx⟩ rfl hgood, exec_of_onLoan ⟨h, hx⟩ rfl hgood⟩
  · rintro i (⟨_, _, rfl⟩ | ⟨_, rfl⟩ | ⟨_, _, _, _, rfl⟩ | ⟨_, rfl⟩) hx <;> exact exec_of_onLoan ⟨h, hx⟩ rfl rfl

/-- Settles O33, by the cases of `Effect`; LAST_STATUS has other writers. -/
theorem splitPhase : Obligations.SplitPhase := by
  unfold Obligations.SplitPhase
  intro i s t hi h
  obtain ⟨-, heff⟩ := exec_effect h
  refine ⟨heff.lastStatus_writers.resolve_right ?_, heff.issues_with_ok_or_neither hi⟩
  rintro (rfl | ⟨st, data, rfl⟩) <;> cases hi

/-- Settles O34, by the cases of `Effect`. -/
theorem onlyIssueAndCompleteMoveXfer : Obligations.OnlyIssueAndCompleteMoveXfer := by
  unfold Obligations.OnlyIssueAndCompleteMoveXfer
  intro i s t h hne
  exact (exec_effect h).2.xfer_movers.resolve_left hne

/-- Settles O39: the completion leaves a free block with the payload still staged, so the command is sent again. -/
theorem reissueSendsTheSameFrame : Obligations.ReissueSendsTheSameFrame := by
  unfold Obligations.ReissueSendsTheSameFrame
  intro i s t1 t2 st frame hf h1 hh h2
  obtain ⟨op, p1, p2, payload, hasks, fits, hsent, rfl⟩ := exec_sent_of_hist hf h1 hh
  obtain ⟨hfree, hparams, hbuf⟩ := hsent.after_completion (exec_effect h1).1 h2
  have fits2 : t2.Fits payload.length := by rwa [State.Fits, hparams]
  have staged2 : t2.Staged payload := by rw [State.Staged, hbuf]; exact hsent.staged
  obtain ⟨t3, h3, hsent3⟩ := hasks.exec_sent hfree fits2 staged2
  exact ⟨t3, h3, hparams ▸ hsent3.hist_eq, hsent3.replies_eq⟩

/-- Settles O40: the frame's cells are inside the buffer and the completion leaves them as they were sent. -/
theorem frameStaysAfterItsWrite : Obligations.FrameStaysAfterItsWrite := by
  unfold Obligations.FrameStaysAfterItsWrite
  intro i s t1 t2 st frame k hf h1 hh h2 b hb
  obtain ⟨op, p1, p2, payload, -, fits, hsent, rfl⟩ := exec_sent_of_hist hf h1 hh
  obtain ⟨hfree, hparams, hbuf⟩ := hsent.after_completion (exec_effect h1).1 h2
  obtain ⟨hk, hcell⟩ := hsent.read_frame hb
  exact exec_fetch_of_cell hfree (hparams ▸ Nat.lt_of_lt_of_le hk fits.2) (hbuf ▸ hcell)

/-- Settles O6, one clause for each outcome of STAGE. -/
theorem stageFollowsItsRule : Obligations.StageFollowsItsRule := by
  unfold Obligations.StageFollowsItsRule
  intro s idx b h
  exact ⟨fun hx hi => ⟨_, exec_stage_of_free ⟨h, hx⟩ hi b, fun j => Memory.read_write s.buf idx j b, rfl⟩,
    fun hx hi => exec_stage_past ⟨h, hx⟩ hi b, fun hx => exec_of_onLoan ⟨h, hx⟩ rfl rfl⟩

/-- Settles O7, one clause for each outcome of FETCH. -/
theorem fetchFollowsItsRule : Obligations.FetchFollowsItsRule := by
  unfold Obligations.FetchFollowsItsRule
  intro s idx h
  exact ⟨fun b hx hi hb => exec_fetch_of_cell ⟨h, hx⟩ hi hb, fun hx hi => exec_fetch_past ⟨h, hx⟩ hi,
    fun hx hi hb => exec_fetch_unwritten ⟨h, hx⟩ hi hb, fun hx => exec_of_onLoan ⟨h, hx⟩ rfl rfl⟩

/-- Settles O13, one clause for each outcome of RECV. -/
theorem recvFollowsItsRule : Obligations.RecvFollowsItsRule := by
  unfold Obligations.RecvFollowsItsRule
  intro s m h
  exact ⟨fun hx lo hi => exec_recv_inRange ⟨h, hx⟩ lo hi, fun hx hm => exec_recv_outOfRange ⟨h, hx⟩ hm,
    fun hx => exec_of_onLoan ⟨h, hx⟩ rfl rfl⟩

/-- Settles O26: no test of XFER guards the answer, and `busy` is that XFER is not Idle. -/
theorem statusAnswersItsPair : Obligations.StatusAnswersItsPair := by
  unfold Obligations.StatusAnswersItsPair
  intro s h
  have hbusy : busy s = decide (s.xfer ≠ .idle) := by rw [Bool.eq_iff_iff, busy_eq_true, decide_eq_true_iff]
  rw [exec, execStatus, live_of_nil h, hbusy]
  rfl

/-- Settles O14: buffer requests by their length; CRC16 and STATUS by their rules, which ask for no free block. -/
theorem busyTurnsBufferRequestsAway : Obligations.BusyTurnsBufferRequestsAway := by
  unfold Obligations.BusyTurnsBufferRequestsAway
  intro s h
  have hstatus := statusAnswersItsPair s h.1
  rw [decide_eq_true h.2] at hstatus
  exact ⟨fun i => exec_of_onLoan h, fun i _ => exec_badSize_of_onLoan h,
    fun data => crc16AnswersAndKeepsItsResult s data h.1, hstatus, exec_reset_of_onLoan h⟩

end Sys2Proof.Machine
end

section
/-! The seven wire commands: the command each of them asks for, param1 of READ.CMD and WRITE.CMD by its two fields, and
the 8 bytes of a frame without payload (42_wire_commands.md R100 to R106). -/

namespace Sys2Proof.Machine

/-! ## The size bit and the zone bits (R7, R56) -/

theorem accessLength_eq_ite (size : AccessSize) : accessLength size = if size = .bytes32 then 32 else 4 := by
  cases size <;> rfl

theorem accessLength_accepted (size : AccessSize) : accessLength size = 4 ∨ accessLength size = 32 := by
  cases size
  · exact .inl rfl
  · exact .inr rfl

theorem sizeBit_eq_ite (size : AccessSize) : sizeBit size = if size = .bytes32 then 1#1 else 0#1 := by
  cases size <;> rfl

/-- The request a wire command names assembles the command's own param1: the mask keeps all 7 zone bits. -/
theorem param1_zoneByte (zone : BitVec 7) (size : AccessSize) :
    param1 (zoneByte zone) (accessLength size) = packParam1 zone size := by
  revert zone
  cases size
  · decide
  · decide

/-! ## The command each wire command asks for (R100 to R106) -/

theorem asksCommand_readCmd (zone : BitVec 7) (size : AccessSize) (addr : Half) :
    AsksCommand (.readCmd zone size addr) Config.opRead (packParam1 zone size) addr 0 := by
  intro s
  rw [← param1_zoneByte]
  exact asksCommand_read (accessLength_accepted size) (zoneByte zone) addr s

theorem asksCommand_writeCmd (zone : BitVec 7) (size : AccessSize) (addr : Half) :
    AsksCommand (.writeCmd zone size addr) Config.opWrite (packParam1 zone size) addr (accessLength size) := by
  intro s
  rw [← param1_zoneByte]
  exact asksCommand_write (accessLength_accepted size) (zoneByte zone) addr s

theorem asksCommand_lockConfig : AsksCommand .lockConfig Config.opLock Config.lockConfigMode 0x0000 0 := fun _ => rfl

theorem asksCommand_lockDataOtp : AsksCommand .lockDataOtp Config.opLock Config.lockDataOtpMode 0x0000 0 := fun _ => rfl

theorem asksCommand_lockSlot0 : AsksCommand .lockSlot0 Config.opLock Config.lockSlot0Mode 0x0000 0 := fun _ => rfl

theorem asksCommand_genkeyNew (slot : Half) :
    AsksCommand (.genkeyNew slot) Config.opGenkey Config.genkeyNewMode slot 0 := fun _ => rfl

theorem asksCommand_random : AsksCommand .random Config.opRandom 0x00 0x0000 0 := fun _ => rfl

/-! ## A command without payload -/

variable {i : Instr} {s : State} {op p1 : Byte} {p2 : Half}

/-- Without payload there is no staged cell to miss, and the 8 bytes fit every buffer R8 allows. -/
theorem AsksCommand.exec_sent_nil (hi : AsksCommand i op p1 p2 0) (valid : s.params.Valid) (h : s.Free) :
    ∃ t, exec i s = .next t ∧ Sent s op p1 p2 [] t :=
  hi.exec_sent (payload := []) h (State.fits_of_valid valid (Nat.zero_le _)) fun _ hk => absurd hk (Nat.not_lt_zero _)

/-- The frame on record, byte for byte, with the CRC of its bytes 1 to 5 (R50, R52, R53). -/
theorem AsksCommand.exec_frame_nil {crc : Half} (hi : AsksCommand i op p1 p2 0) (valid : s.params.Valid) (h : s.Free)
    (hcrc : crc16 [0x07, op, p1, loByte p2, hiByte p2] = crc) :
    ∃ t, exec i s = .next t ∧ Sent s op p1 p2 [] t ∧
      t.hist = s.hist ++ [.w [s.params.wordAddr, 0x07, op, p1, loByte p2, hiByte p2, loByte crc, hiByte crc]] := by
  obtain ⟨t, ht, hsent⟩ := hi.exec_sent_nil valid h
  exact ⟨t, ht, hsent, hcrc ▸ hsent.hist_eq⟩

end Sys2Proof.Machine
end

section
/-! The obligations of 42_wire_commands.md, each from the lemmas above. -/

namespace Sys2Proof.Machine

/-- Settles O15: READ.CMD asks for a command without payload, and its param1 is its size bit and zone bits. -/
theorem readCmdSendsItsFrame : Obligations.ReadCmdSendsItsFrame := by
  unfold Obligations.ReadCmdSendsItsFrame
  intro s zone size addr valid h
  rw [← sizeBit_eq_ite]
  exact (asksCommand_readCmd zone size addr).exec_sent_nil valid h

/-- Settles O16: WRITE.CMD asks for a command with as many payload bytes as its size says. -/
theorem writeCmdSendsItsFrame : Obligations.WriteCmdSendsItsFrame := by
  unfold Obligations.WriteCmdSendsItsFrame
  intro s zone size addr payload valid h hlen staged
  rw [← accessLength_eq_ite] at hlen
  have hfits : s.Fits payload.length := State.fits_of_goodLength valid (hlen ▸ accessLength_accepted size)
  have hasks := asksCommand_writeCmd zone size addr
  rw [← hlen] at hasks
  rw [← sizeBit_eq_ite]
  exact hasks.exec_sent h hfits staged

/-- Settles O17: the CRC of each command's five bytes by evaluation, the rest as in every frame without payload. -/
theorem lockAndRandomFrames : Obligations.LockAndRandomFrames := by
  unfold Obligations.LockAndRandomFrames
  intro s valid h
  exact ⟨asksCommand_lockConfig.exec_frame_nil (crc := 0x8D39) valid h (by decide +kernel),
    asksCommand_lockDataOtp.exec_frame_nil (crc := 0x073A) valid h (by decide +kernel),
    asksCommand_lockSlot0.exec_frame_nil (crc := 0x083A) valid h (by decide +kernel),
    asksCommand_random.exec_frame_nil (crc := 0xCD24) valid h (by decide +kernel)⟩

/-- Settles O18: the frame without payload, its two 16-bit fields by their bytes. -/
theorem genkeySendsItsSlot : Obligations.GenkeySendsItsSlot := by
  unfold Obligations.GenkeySendsItsSlot
  intro s slot valid h
  obtain ⟨t, ht, hsent, hhist⟩ := (asksCommand_genkeyNew slot).exec_frame_nil valid h rfl
  simp only [loByte_eq, hiByte_eq] at hhist
  refine ⟨t, ht, hsent, ?_⟩
  rintro crc rfl
  exact hhist

end Sys2Proof.Machine
end

section
/-! COMPLETE by what is in flight and what it carries, the causes of each model fault, and what an error result leaves
(60_exceptions.md R121 to R131). -/

namespace Sys2Proof.Machine

variable {i : Instr} {s t : State}

/-! ## The completion of a read transfer, and the completions that fault (R124, R126) -/

/-- The bytes of an OK read land in cells 0 to m-1 and no other cell changes (R43). -/
theorem exec_complete_of_read_ok {data : List Byte} (h : s.faults = []) (hx : s.xfer = .read data.length)
    (hm : data.length ≤ s.params.bufSize) :
    ∃ b : Memory, (∀ j, b.read j = if j < data.length then data[j]? else s.buf.read j) ∧
      exec (.complete .ok data) s = .next (addReply (.notify .read .ok)
        (record (.c .ok data) { s with buf := b, lastStatus := .of .ok, xfer := .idle })) := by
  obtain ⟨b, hwrite, hcell, -⟩ := memWrite_inside (size := s.params.bufSize) (m := s.buf) (i := 0) (bytes := data)
    (by rwa [Nat.zero_add])
  refine ⟨b, fun j => by simpa using hcell j, ?_⟩
  rw [exec, execComplete_of_read h hx, completeRead, if_pos rfl, if_neg (by simp), hwrite, orRaise_ok, finishTransfer,
    completionRecord_ok]

theorem exec_complete_of_failedRead {m : Nat} {st : Status} (h : s.faults = []) (hx : s.xfer = .read m)
    (hst : st ≠ .ok) (data : List Byte) :
    exec (.complete st data) s = .next (addReply (.notify .read st)
      (record (.c st []) { s with buf := s.buf.clearBelow m, lastStatus := .of st, xfer := .idle })) := by
  rw [exec, execComplete_of_read h hx, completeRead, if_neg hst, finishTransfer, completionRecord_of_failed hst]

theorem exec_complete_of_free (h : s.Free) (st : Status) (data : List Byte) :
    exec (.complete st data) s = .next { s with faults := [(.spuriousCompletion, .complete st data)] } := by
  rw [exec, execComplete_of_idle h.1 h.2, raise_of_nil h.1]

theorem exec_complete_of_write_bytes {len : Nat} {data : List Byte} (h : s.faults = []) (hx : s.xfer = .write len)
    (hd : data ≠ []) (st : Status) :
    exec (.complete st data) s = .next { s with faults := [(.completionLength, .complete st data)] } := by
  rw [exec, execComplete_of_write h hx, completeWrite, if_pos hd, raise_of_nil h]

theorem exec_complete_of_read_length {m : Nat} {data : List Byte} (h : s.faults = []) (hx : s.xfer = .read m)
    (hd : data.length ≠ m) :
    exec (.complete .ok data) s = .next { s with faults := [(.completionLength, .complete .ok data)] } := by
  rw [exec, execComplete_of_read h hx, completeRead, if_pos rfl, if_pos hd, raise_of_nil h]

/-! ## After a fault (R125) -/

theorem step_of_faulted {f : FaultCode} {req : Instr} {rest : List (FaultCode × Instr)}
    (h : s.faults = (f, req) :: rest) : step s = .fault (.halted f req) := by
  simp only [step, fetch, h]

/-! ## The causes of the faults (R124, R131) -/

theorem framesCommand_of_payloadLength {n : Nat} (h : payloadLength i = some n) : framesCommand i = true := by
  cases i with
  | crc16 | stage | fetch | recv | status | reset | complete => cases h
  | _ => rfl

/-- A command whose payload has an unwritten cell (R82, R85). -/
theorem exec_of_unstaged {n : Nat} (hn : payloadLength i = some n) (hz : sizeAccepted i = true) (h : s.Free)
    (fits : s.Fits n) (hk : ∃ k, k < n ∧ s.buf.read (6 + k) = none) :
    exec i s = .next { s with faults := [(.unwritten, requestOf i)] } := by
  obtain ⟨op, p1, p2, n', hn', -, hasks⟩ := exec_framing (framesCommand_of_payloadLength hn) hz
  obtain rfl : n = n' := Option.some.inj (hn.symm.trans hn')
  exact AsksCommand.exec_unwritten hasks h fits hk

/-- Where a cause of the table holds, its fault is raised. -/
theorem exec_of_faultCause {f : FaultCode} (h : s.faults = []) (hc : FaultCause f i s) :
    exec i s = .next { s with faults := [(f, requestOf i)] } := by
  cases f with
  | bufRange =>
    obtain ⟨hx, idx, hi, rfl | ⟨b, rfl⟩⟩ := hc
    · exact exec_fetch_past ⟨h, hx⟩ hi
    · exact exec_stage_past ⟨h, hx⟩ hi b
  | unwritten =>
    obtain ⟨hx, ⟨idx, hi, rfl, hcell⟩ | ⟨n, hn, hz, fits, hk⟩⟩ := hc
    · exact exec_fetch_unwritten ⟨h, hx⟩ hi hcell
    · exact exec_of_unstaged hn hz ⟨h, hx⟩ fits hk
  | frameRange =>
    obtain ⟨hx, op, p1, p2, n, rfl, hn⟩ := hc
    exact (asksCommand_sendCommand op p1 p2 n).exec_frameRange ⟨h, hx⟩ (by simp only [State.Fits]; omega)
  | recvRange =>
    obtain ⟨hx, m, rfl, hm⟩ := hc
    exact exec_recv_outOfRange ⟨h, hx⟩ (by omega)
  | spuriousCompletion =>
    obtain ⟨hx, st, data, rfl⟩ := hc
    exact exec_complete_of_free ⟨h, hx⟩ st data
  | completionLength =>
    obtain ⟨st, data, rfl, ⟨len, hx, hd⟩ | ⟨m, hx, rfl, hd⟩⟩ := hc
    · exact exec_complete_of_write_bytes h hx hd st
    · exact exec_complete_of_read_length h hx hd

/-- A READ or WRITE of a bad length raises nothing (R88, R89). -/
theorem exec_badSize_faults (hz : sizeAccepted i = false) (h : exec i s = .next t) : t.faults = s.faults := by
  rw [exec_badSize hz, live_eq_next] at h
  obtain ⟨-, h⟩ := h
  split at h <;> cases h <;> rfl

/-- Of the framing instructions whose length is accepted, SEND_COMMAND alone can ask for a frame past the limits: the
others have at most 32 payload bytes (R83, R88). -/
theorem sendCommand_of_not_fits (valid : s.params.Valid) (hf : framesCommand i = true) (hz : sizeAccepted i = true)
    (hn : ¬ s.Fits ((payloadLength i).getD 0)) : ∃ op p1 p2 n, i = .sendCommand op p1 p2 n ∧ ¬ s.Fits n := by
  cases i with
  | sendCommand op p1 p2 n => exact ⟨op, p1, p2, n, rfl, hn⟩
  | write zone addr len =>
    have hlen : len = 4 ∨ len = 32 := by simpa [sizeAccepted] using hz
    exact absurd (State.fits_of_goodLength valid hlen) hn
  | writeCmd zone size addr => exact absurd (State.fits_of_goodLength valid (accessLength_accepted size)) hn
  | crc16 | stage | fetch | recv | status | reset | complete => cases hf
  | _ => exact absurd (State.fits_of_valid valid (Nat.zero_le _)) hn

/-- A fault on record after an instruction has its cause in the table. The two ways to raise one that the table does not
have, a frame past the limits of another request than SEND_COMMAND and an OK read longer than the buffer, are those the
invariant shuts out. -/
theorem faultCause_of_exec {f : FaultCode} {req : Instr} (inv : s.Inv) (h : exec i s = .next t)
    (hmem : (f, req) ∈ t.faults) : FaultCause f i s := by
  obtain ⟨hlive, heff⟩ := exec_effect h
  have hnew : t.faults ≠ s.faults := by
    rw [hlive]
    exact List.ne_nil_of_mem hmem
  cases heff with
  | raised g cause =>
    obtain ⟨rfl, -⟩ : f = g ∧ req = requestOf i := by simpa using hmem
    obtain hc | ⟨rfl, hn, hx, hf⟩ | ⟨rfl, m, st, data, hx, -, hm⟩ := cause
    · exact hc
    · have hz : sizeAccepted i = true := by
        rw [← Bool.not_eq_false]
        exact fun hz => hnew (exec_badSize_faults hz h)
      obtain ⟨op, p1, p2, n, rfl, hn⟩ := sendCommand_of_not_fits inv.params hf hz hn
      exact ⟨hx, op, p1, p2, n, rfl, by simp only [State.Fits] at hn; omega⟩
    · exact absurd (inv.xferInRange.2 m hx).2 (Nat.not_le.2 hm)
  | sent _ _ _ _ _ _ _ _ _ _ hsent => exact absurd hsent.faults_eq hnew
  | _ => exact absurd rfl hnew

/-! ## Error results (R121) -/

/-- Only the three effects that turn a request away answer SIZE_ERROR or BUSY, and they change nothing else. -/
theorem Effect.unchanged_of_error {v : Result} (h : Effect i s t) (hv : v = .sizeError ∨ v = .busy)
    (hr : t.replies = s.replies ++ [.result v]) : t = { s with replies := t.replies, choices := t.choices } := by
  cases h with
  | busy | sizeError | chosen => rfl
  | sent _ _ _ _ _ _ _ _ _ _ hsent =>
    rw [hsent.replies_eq] at hr
    obtain rfl | rfl := hv <;> simp at hr
  | _ => obtain rfl | rfl := hv <;> simp at hr

end Sys2Proof.Machine
end

section
/-! The obligations of 60_exceptions.md, each from the lemmas above. -/

namespace Sys2Proof.Machine

/-- Settles O21: COMPLETE without bytes on a write transfer touches no cell. -/
theorem writeCompletionKeepsTheBuffer : Obligations.WriteCompletionKeepsTheBuffer := by
  unfold Obligations.WriteCompletionKeepsTheBuffer
  intro s len st h hx
  exact exec_complete_of_write h hx st

/-- Settles O22: the one MemWrite of the completion is inside the buffer. -/
theorem readCompletionLandsItsBytes : Obligations.ReadCompletionLandsItsBytes := by
  unfold Obligations.ReadCompletionLandsItsBytes
  intro s data h hx hm
  obtain ⟨b, hcell, hexec⟩ := exec_complete_of_read_ok h hx hm
  exact ⟨_, hexec, hcell, rfl⟩

/-- Settles O23: the cells below m are cleared, whatever bytes the event carries. -/
theorem failedReadInvalidatesItsCells : Obligations.FailedReadInvalidatesItsCells := by
  unfold Obligations.FailedReadInvalidatesItsCells
  intro s m st data h hx hst
  exact ⟨_, exec_complete_of_failedRead h hx hst data, s.buf.read_clearBelow m, rfl⟩

/-- Settles O24, one clause for each inconsistent completion. -/
theorem inconsistentCompletionsFault : Obligations.InconsistentCompletionsFault := by
  unfold Obligations.InconsistentCompletionsFault
  intro s st data h
  refine ⟨fun hx => exec_complete_of_free ⟨h, hx⟩ st data,
    fun len hx hd => exec_complete_of_write_bytes h hx hd st, ?_⟩
  rintro m hx rfl hd
  exact exec_complete_of_read_length h hx hd

/-- Settles O25: a write transfer completes without bytes, a read of m bytes with OK and any m bytes, which the
invariant says fit the buffer, or with another status. -/
theorem everyStatusCanComplete : Obligations.EveryStatusCanComplete := by
  unfold Obligations.EveryStatusCanComplete
  intro s st inv ⟨h, hloan⟩
  cases hx : s.xfer with
  | idle => exact absurd hx hloan
  | write len => exact ⟨[], _, exec_complete_of_write h hx st, ⟨h, rfl⟩, rfl⟩
  | read m =>
    by_cases hst : st = .ok
    · subst hst
      have hlen : (List.replicate m (0 : Byte)).length = m := List.length_replicate
      obtain ⟨b, -, hexec⟩ := exec_complete_of_read_ok (data := List.replicate m 0) h (by rw [hx, hlen])
        (by rw [hlen]; exact (inv.xferInRange.2 m hx).2)
      exact ⟨_, _, hexec, ⟨h, rfl⟩, rfl⟩
    · exact ⟨[], _, exec_complete_of_failedRead h hx hst [], ⟨h, rfl⟩, rfl⟩

/-- Settles O29: the pair at the head of FAULTS stops the step and every instruction alike. -/
theorem aFaultIsFinal : Obligations.AFaultIsFinal := by
  unfold Obligations.AFaultIsFinal
  intro s hne
  obtain ⟨⟨f, req⟩, rest, h⟩ := List.exists_cons_of_ne_nil hne
  exact ⟨f, req, by simp [h], step_of_faulted h, exec_of_faulted h⟩

/-- Settles O30: a cause raises its fault in every live state, and the invariant shuts out every other raise. -/
theorem faultsHaveTheirCauses : Obligations.FaultsHaveTheirCauses := by
  unfold Obligations.FaultsHaveTheirCauses
  intro s i f inv h
  refine ⟨⟨fun hc => ⟨_, exec_of_faultCause h hc, requestOf i, by simp⟩, ?_⟩, exec_of_faultCause h⟩
  rintro ⟨t, hexec, req, hmem⟩
  exact faultCause_of_exec inv hexec hmem

/-- Settles O32, by the cases of `Effect`. -/
theorem errorResultsChangeNothing : Obligations.ErrorResultsChangeNothing := by
  unfold Obligations.ErrorResultsChangeNothing
  intro i s t v hv h hr
  exact (exec_effect h).2.unchanged_of_error hv hr

end Sys2Proof.Machine
end

section
/-! RESET by what is in flight, what RECV puts in flight, and what a failed read leaves for FETCH, STAGE and WRITE
(70_reset_and_hazards.md R140, R145, R147, R148). -/

namespace Sys2Proof.Machine

variable {s t : State} {m : Nat}

theorem exec_reset_of_free (h : s.Free) :
    exec .reset s = .next (addReply (.result .ok)
      { s with crcReg := Config.crcInit, buf := [], xfer := .idle, lastStatus := .none }) := by
  rw [exec, execReset, live_of_nil h.1, busy_eq_false.2 h.2, if_neg Bool.false_ne_true, answer]

/-- RECV on a free block that raised no fault put a read in flight that the buffer takes (R86): no other effect of RECV
is left. -/
theorem read_inFlight_after_recv (idle : s.xfer = .idle) (h : exec (.recv m) s = .next t) (hlive : t.faults = []) :
    t.xfer = .read m ∧ m ≤ t.params.bufSize := by
  obtain ⟨-, heff⟩ := exec_effect h
  cases heff with
  | raised => cases hlive
  | busy _ loan => exact absurd idle loan
  | sizeError bad => cases bad
  | chosen _ _ bad => cases bad
  | sent _ _ _ _ frames => cases frames
  | received _ _ _ hi => exact ⟨rfl, hi⟩

/-- A read completed with OK leaves each of its bytes for FETCH (R81, R126). -/
theorem exec_fetch_after_read {data : List Byte} {k : Nat} (h : s.faults = []) (hx : s.xfer = .read data.length)
    (hm : data.length ≤ s.params.bufSize) (hk : k < data.length) :
    ∃ t, exec (.complete .ok data) s = .next t ∧
      exec (.fetch k) t = .next (addReply (.result (.okByte data[k])) t) := by
  obtain ⟨b, hcell, hc⟩ := exec_complete_of_read_ok h hx hm
  have hbyte : b.read k = some data[k] := by rw [hcell, if_pos hk, List.getElem?_eq_getElem hk]
  refine ⟨_, hc, exec_fetch_of_cell ?_ ?_ hbyte⟩
  · exact ⟨h, rfl⟩
  · exact Nat.lt_of_lt_of_le hk hm

/-- A failed read leaves a free block whose cells below m hold ⊥ (R43). -/
theorem unwritten_after_failedRead {st : Status} {data : List Byte} (hx : s.xfer = .read m) (hst : st ≠ .ok)
    (h : exec (.complete st data) s = .next t) :
    t.Free ∧ t.params = s.params ∧ ∀ j, j < m → t.buf.read j = none := by
  obtain ⟨hlive, -⟩ := exec_effect h
  rw [exec_complete_of_failedRead hlive hx hst] at h
  cases h
  exact ⟨⟨hlive, rfl⟩, rfl, fun j hj => (s.buf.read_clearBelow m j).trans (if_pos hj)⟩

/-- STAGE requests that leave an unwritten payload cell out do not stage the payload of a WRITE (R145). -/
theorem exec_write_of_cell_left_out {u : State} {stages : List (Nat × Byte)} {k len : Nat} (valid : t.params.Valid)
    (h : t.Free) (hcell : t.buf.read (6 + k) = none) (hlen : len = 4 ∨ len = 32) (hk : k < len)
    (hout : ∀ p ∈ stages, p.1 ≠ 6 + k) (hrun : execAll (stages.map fun p => .stage p.1 p.2) t = .next u)
    (hlive : u.faults = []) (zone : Byte) (addr : Half) :
    exec (.write zone addr len) u = .next { u with faults := [(.unwritten, .write zone addr len)] } := by
  obtain ⟨hfree, hparams, hkept⟩ := execAll_stages_frame stages h hrun hlive
  exact (asksCommand_write hlen zone addr).exec_unwritten hfree
    (State.fits_of_goodLength (hparams ▸ valid) hlen) ⟨k, hk, (hkept _ hout).trans hcell⟩

/-- The STAGE requests of a payload that fits a frame complete and leave it staged (R82). -/
theorem execAll_stagePayload {payload : List Byte} (h : t.Free) (fits : t.Fits payload.length) :
    ∃ u, execAll (stagePayload payload) t = .next u ∧ u.Free ∧ u.params = t.params ∧ u.Staged payload := by
  have hinside : 6 + payload.length ≤ t.params.bufSize := by
    obtain ⟨-, hbuf⟩ := fits
    omega
  obtain ⟨u, hrun, hfree, hparams, hcell⟩ := execAll_stage_bytes payload 6 h hinside
  refine ⟨u, hrun, hfree, hparams, fun k hk => ?_⟩
  rw [hcell, if_pos (by omega), Nat.add_sub_cancel_left]

end Sys2Proof.Machine
end

section
/-! The obligations of 70_reset_and_hazards.md, each from the lemmas above. -/

namespace Sys2Proof.Machine

/-- Settles O42: the cells the read covered stay unwritten until a STAGE names them, and staging every payload cell
makes the WRITE the command of that payload. -/
theorem aFailedReadUnstagesThePayload : Obligations.AFailedReadUnstagesThePayload := by
  unfold Obligations.AFailedReadUnstagesThePayload
  intro s t m st data zone addr len inv hx _ hst hlen hc
  obtain ⟨hfree, hparams, hnone⟩ := unwritten_after_failedRead hx hst hc
  have valid : t.params.Valid := hparams ▸ inv.params
  constructor
  · intro stages k u hk hm hout hrun hlive
    exact exec_write_of_cell_left_out valid hfree (hnone _ hm) hlen hk hout hrun hlive zone addr
  · rintro payload rfl
    obtain ⟨u, hrun, hfreeU, hparamsU, staged⟩ := execAll_stagePayload hfree (State.fits_of_goodLength valid hlen)
    obtain ⟨v, hwrite, hsent⟩ := (asksCommand_write hlen zone addr).exec_sent hfreeU
      (State.fits_of_goodLength (hparamsU ▸ valid) hlen) staged
    exact ⟨u, v, hrun, hwrite, hsent⟩

/-- Settles O41: the read issued keeps the buffer on loan, lands its bytes with OK and clears its cells otherwise. -/
theorem responsesAreReadableAfterOk : Obligations.ResponsesAreReadableAfterOk := by
  unfold Obligations.ResponsesAreReadableAfterOk
  intro s t1 m k hk h hlive idle
  obtain ⟨hx, hm⟩ := read_inFlight_after_recv idle h hlive
  refine ⟨exec_of_onLoan ⟨hlive, by simp [hx]⟩ rfl rfl, ?_, fun st data hst => ?_⟩
  · rintro data rfl
    obtain ⟨t2, hc, hf⟩ := exec_fetch_after_read hlive hx hm hk
    exact ⟨t2, data[k], hc, List.getElem?_eq_getElem hk, hf⟩
  · have hc := exec_complete_of_failedRead hlive hx hst data
    obtain ⟨hfree, hparams, hnone⟩ := unwritten_after_failedRead hx hst hc
    exact ⟨_, hc, exec_fetch_unwritten hfree (hparams ▸ Nat.lt_of_lt_of_le hk hm) (hnone k hk)⟩

/-- Settles O27, one clause for a free block and one for a transfer in flight. -/
theorem resetFollowsItsRule : Obligations.ResetFollowsItsRule := by
  unfold Obligations.ResetFollowsItsRule
  intro s h
  exact ⟨fun hx => ⟨_, exec_reset_of_free ⟨h, hx⟩, rfl, Memory.read_nil, rfl, rfl, rfl⟩,
    fun hx => exec_reset_of_onLoan ⟨h, hx⟩⟩

/-- Settles O28, one conjunct for each element of the block. -/
theorem resetValues : Obligations.ResetValues := ⟨rfl, Memory.read_nil, rfl, rfl, rfl, rfl⟩

end Sys2Proof.Machine
end
